-- ==== Sys2Proof/Word.lean ====
section
/-! DEFINITION. The two data units of the machine: the 16-bit word (10_state.md R20) and the byte of
the IN and OUT ports and of the program image (48_io.md R220, R222, 20_memory.md R57). -/

namespace Sys2Proof

/-- A word: an unsigned 16-bit cell, any value 0..65535 (10_state.md R20, 00_scope.md R8). -/
abbrev Word := BitVec 16

/-- A byte, 0..255. -/
abbrev Byte := BitVec 8

end Sys2Proof
end

