-- ==== Sys2Proof/Config.lean ====
section
/-! DEFINITION. What an implementation fixes: the parameters of 00_scope.md R7 other than MEM_LEN
(MEM_LEN is set by the image, so it stands in State), and the names of the failure kinds
(60_exceptions.md R240). The parameters' defaults are in Sys2Proof/Decode.lean. The spec leaves no result, register or flag undefined, so there is no opaque
free value here. -/

namespace Sys2Proof

/-- The failure kinds of 60_exceptions.md R240. Each one halts the engine with status Failure(kind)
(R241); none of them stops the model. -/
inductive FailureKind where
  /-- A memory address or the decode window outside `[0, MEM_LEN)`. Raised at decode by every
  instruction, and by the handlers of `rmem` and `wmem`. -/
  | outOfBounds
  /-- An operand word that is wrong for its role. Raised at decode only (R245). -/
  | invalidOperand
  /-- An opcode word that is none of the opcode map's numbers (by default 22..65535). Raised at
  decode. -/
  | unknownOpcode
  /-- `pop` or `ret` on an empty stack. -/
  | emptyStack
  /-- `in` found its queue empty and the host answered Unavailable (or a line of no bytes). -/
  | inputUnavailable
  /-- `mod` with a zero divisor (decision D5). -/
  | divisionByZero
  /-- `push` or `call` on a full stack of finite capacity (decision D8). -/
  | stackOverflow
deriving DecidableEq, Repr

/-- The opcode map as a configuration table (93_implementation_defined.md U4): the opcode number of
each row of 30_encoding.md R84's table, the rows counted from 0. -/
abbrev OpcodeMap := Vector Word 22

/-- The parameters of 00_scope.md R7. DESIGN CHOICE (log 3): they stand in State as constant data, so
that a statement over all states covers every setting. -/
structure Config where
  /-- `STACK_DEPTH`; `none` is unbounded, the default (10_state.md R31, D8) -/
  stackDepth : Option Nat
  /-- `CHECK_UNUSED_OPERAND_WORDS` (30_encoding.md R92, D3) -/
  checkUnused : Bool
  /-- the numeric opcode values (30_encoding.md R84, U4, D1; log 8) -/
  opcodes : OpcodeMap
deriving DecidableEq, Repr

end Sys2Proof
end

