-- ==== Sys2Proof/Syntax.lean ====
section
/-! DEFINITION. The 22 instructions of spec/opcode_table.json (30_encoding.md R84), one constructor
per row, with their operands by role (R82). -/

namespace Sys2Proof

/-- A register index 0..7 (10_state.md R22): what a D operand denotes, with the 32768 offset already
stripped (R23, 30_encoding.md R88). -/
abbrev Reg := Fin 8

/-- The role of an operand position (30_encoding.md R82): a destination register or a value. -/
inductive Role where
  | dest
  | value
deriving DecidableEq, Repr

/-- A V operand as the instruction word gives it (30_encoding.md R86, R87): a literal, or the register
whose contents are the value. The value itself is read by `State.value` in the same cycle, before
any write (R95; log 27). -/
inductive Operand where
  | lit (n : Word)
  | reg (r : Reg)
deriving DecidableEq, Repr

/-- The instructions, in the order of the opcode map (30_encoding.md R84). -/
inductive Instr where
  /-- `halt` (R140) -/
  | halt
  /-- `set reg, val` (R150) -/
  | set (reg : Reg) (val : Operand)
  /-- `push val` (R151) -/
  | push (val : Operand)
  /-- `pop reg` (R152) -/
  | pop (reg : Reg)
  /-- `eq reg, op1, op2` (R160) -/
  | eq (reg : Reg) (op1 op2 : Operand)
  /-- `gt reg, op1, op2` (R161) -/
  | gt (reg : Reg) (op1 op2 : Operand)
  /-- `jmp target` (R170) -/
  | jmp (target : Operand)
  /-- `jt cond, target` (R171) -/
  | jt (cond target : Operand)
  /-- `jf cond, target` (R172) -/
  | jf (cond target : Operand)
  /-- `add reg, op1, op2` (R180) -/
  | add (reg : Reg) (op1 op2 : Operand)
  /-- `mult reg, op1, op2` (R181) -/
  | mult (reg : Reg) (op1 op2 : Operand)
  /-- `mod reg, op1, op2` (R182) -/
  | mod (reg : Reg) (op1 op2 : Operand)
  /-- `and reg, op1, op2` (R183) -/
  | and (reg : Reg) (op1 op2 : Operand)
  /-- `or reg, op1, op2` (R184) -/
  | or (reg : Reg) (op1 op2 : Operand)
  /-- `not reg, op1` (R185) -/
  | not (reg : Reg) (op1 : Operand)
  /-- `rmem reg, addr` (R200) -/
  | rmem (reg : Reg) (addr : Operand)
  /-- `wmem addr, val` (R201) -/
  | wmem (addr val : Operand)
  /-- `call addr` (R210) -/
  | call (addr : Operand)
  /-- `ret` (R211) -/
  | ret
  /-- `out char` (R220) -/
  | out (char : Operand)
  /-- `in reg` (R223); `in` is a word of Lean's own -/
  | inp (reg : Reg)
  /-- `noop` (R141) -/
  | noop
deriving DecidableEq, Repr

end Sys2Proof
end

