-- ==== Sys2Proof/WellFormed.lean ====
section
/-! DEFINITION. When a term of `Instr` is an instruction of the machine: every literal operand is one
an operand word can name, 0..32767 (30_encoding.md R86). When a setting of the parameters is one of
the machine's: no two opcodes have the same number. A D operand needs no check: `Reg` holds
exactly 0..7. -/

namespace Sys2Proof

/-- A literal is at most 32767 (30_encoding.md R86); a register reference is always well formed. -/
def Operand.wf : Operand → Bool
  | .lit n => decide (n.toNat ≤ 32767)
  | .reg _ => true

/-- Every V operand of the instruction is well formed. -/
def Instr.wf : Instr → Bool
  | .halt | .ret | .noop | .pop _ | .inp _ => true
  | .set _ b | .not _ b | .rmem _ b => b.wf
  | .push a | .jmp a | .call a | .out a => a.wf
  | .jt a b | .jf a b | .wmem a b => a.wf && b.wf
  | .eq _ b c | .gt _ b c | .add _ b c | .mult _ b c | .mod _ b c | .and _ b c | .or _ b c =>
    b.wf && c.wf

/-- No word stands twice in the list. -/
def distinctWords : List Word → Bool
  | [] => true
  | w :: ws => !ws.contains w && distinctWords ws

/-- The opcode map tells the 22 opcodes apart: their numbers are pairwise different (30_encoding.md R84,
93_implementation_defined.md U4; log 8). -/
def Config.wf (cfg : Config) : Bool := distinctWords cfg.opcodes.toList

end Sys2Proof
end

