-- ==== Sys2Proof/Decode.lean ====
section
/-! DEFINITION. From words to instructions and back (30_encoding.md): byte order of the image, the
classes of operand words, the decoder (total, rejecting by failure kind), and the encoder. -/

namespace Sys2Proof

/-! ### Bytes and words -/

/-- The word whose low byte comes first in the image (20_memory.md R57). -/
def wordOfBytes (lo hi : Byte) : Word := hi ++ lo

/-- `low8(w)` (00_scope.md R8). -/
def lowByte (w : Word) : Byte := w.extractLsb' 0 8

/-- Bits 15..8 of a word. -/
def highByte (w : Word) : Byte := w.extractLsb' 8 8

/-- `zext_16(b)` (00_scope.md R8). -/
def zext16 (b : Byte) : Word := b.setWidth 16

/-- The words of a byte sequence, two bytes a word, low byte first (20_memory.md R57); a trailing
odd byte makes no word. -/
def wordsOfBytes : List Byte → List Word
  | lo :: hi :: rest => wordOfBytes lo hi :: wordsOfBytes rest
  | _ => []

/-- The bytes of a word sequence as the image lays them out (20_memory.md R57). -/
def bytesOfWords : List Word → List Byte
  | [] => []
  | w :: ws => lowByte w :: highByte w :: bytesOfWords ws

/-- The first `n` bytes of a number, bits 7..0 first. -/
def bytesOfNat : Nat → Nat → List Byte
  | 0, _ => []
  | n + 1, w => BitVec.ofNat 8 w :: bytesOfNat n (w / 256)

/-! ### Operand words -/

/-- The register index of a register reference, `n - 32768` (30_encoding.md R87, R88). -/
def registerIndex (n : Word) : Reg := Fin.ofNat 8 (n.toNat - 32768)

/-- `resolve_value` up to the register read (30_encoding.md R87): a literal, a register reference, or
InvalidOperand. -/
def decodeValue (n : Word) : Except FailureKind Operand :=
  if n.toNat ≤ 32767 then .ok (.lit n)
  else if n.toNat ≤ 32775 then .ok (.reg (registerIndex n))
  else .error .invalidOperand

/-- `resolve_dest` (30_encoding.md R88): a register index, or InvalidOperand. -/
def decodeDest (n : Word) : Except FailureKind Reg :=
  if 32768 ≤ n.toNat ∧ n.toNat ≤ 32775 then .ok (registerIndex n)
  else .error .invalidOperand

/-! ### The decoder -/

/-- The decode window: the four words `[ip, ip + 4)` (30_encoding.md R90). -/
structure Window where
  w0 : Word
  w1 : Word
  w2 : Word
  w3 : Word
deriving DecidableEq, Repr

/-- The encoded length in words, by opcode (30_encoding.md R81, R83, R84). -/
def Instr.len : Instr → Nat
  | .halt | .ret | .noop => 1
  | .push _ | .pop _ | .jmp _ | .call _ | .out _ | .inp _ => 2
  | .set _ _ | .jt _ _ | .jf _ _ | .not _ _ | .rmem _ _ | .wmem _ _ => 3
  | .eq _ _ _ | .gt _ _ _ | .add _ _ _ | .mult _ _ _ | .mod _ _ _ | .and _ _ _ | .or _ _ _ => 4

/-- A D operand then two V operands, classified in that order (30_encoding.md R94). -/
def decodeDVV (mk : Reg → Operand → Operand → Instr) (w : Window) : Except FailureKind Instr := do
  let a ← decodeDest w.w1
  let b ← decodeValue w.w2
  let c ← decodeValue w.w3
  return mk a b c

/-- A D operand then a V operand. -/
def decodeDV (mk : Reg → Operand → Instr) (w : Window) : Except FailureKind Instr := do
  let a ← decodeDest w.w1
  let b ← decodeValue w.w2
  return mk a b

/-- Two V operands. -/
def decodeVV (mk : Operand → Operand → Instr) (w : Window) : Except FailureKind Instr := do
  let a ← decodeValue w.w1
  let b ← decodeValue w.w2
  return mk a b

/-- One D operand. -/
def decodeD (mk : Reg → Instr) (w : Window) : Except FailureKind Instr :=
  (decodeDest w.w1).map mk

/-- One V operand. -/
def decodeV (mk : Operand → Instr) (w : Window) : Except FailureKind Instr :=
  (decodeValue w.w1).map mk

/-- The default opcode map (30_encoding.md R84, decision D1; UNVERIFIED, log 8): every opcode's number is
its row in R84's table. -/
def defaultOpcodes : OpcodeMap :=
  #v[0, 1, 2, 3, 4, 5, 6, 7, 8, 9, 10, 11, 12, 13, 14, 15, 16, 17, 18, 19, 20, 21]

/-- The defaults of 00_scope.md R7: an unbounded stack, unused window words not classified, the opcode
numbers of decision D1. -/
def Config.default : Config :=
  { stackDepth := none, checkUnused := false, opcodes := defaultOpcodes }

/-- The row of the opcode map whose number is `w`, 22 if there is none. The word is compared raw
(30_encoding.md R85). If two rows had one number, which `Config.wf` rules out, the first would be
taken (DESIGN CHOICE, log 8). -/
def opcodeRow (m : OpcodeMap) (w : Word) : Nat := m.toList.idxOf w

/-- The rows of 30_encoding.md R84's table, found by the opcode word in the map `m`; a word that is no
number of the map raises UnknownOpcode (R85). The map is U4's parameter (log 8). -/
def decodeOpcode (m : OpcodeMap) (w : Window) : Except FailureKind Instr :=
  match opcodeRow m w.w0 with
  | 0 => .ok .halt
  | 1 => decodeDV .set w
  | 2 => decodeV .push w
  | 3 => decodeD .pop w
  | 4 => decodeDVV .eq w
  | 5 => decodeDVV .gt w
  | 6 => decodeV .jmp w
  | 7 => decodeVV .jt w
  | 8 => decodeVV .jf w
  | 9 => decodeDVV .add w
  | 10 => decodeDVV .mult w
  | 11 => decodeDVV .mod w
  | 12 => decodeDVV .and w
  | 13 => decodeDVV .or w
  | 14 => decodeDV .not w
  | 15 => decodeDV .rmem w
  | 16 => decodeVV .wmem w
  | 17 => decodeV .call w
  | 18 => .ok .ret
  | 19 => decodeV .out w
  | 20 => decodeD .inp w
  | 21 => .ok .noop
  | _ => .error .unknownOpcode

/-- The window words past the first `len` (30_encoding.md R92). -/
def Window.unused (w : Window) (len : Nat) : List Word := [w.w0, w.w1, w.w2, w.w3].drop len

/-- Every word of the list is one `resolve_value` accepts. -/
def valueWords (ws : List Word) : Bool := ws.all fun n => decide (n.toNat ≤ 32775)

/-- `Decode` on a window (30_encoding.md R91), after the window check: opcode, operands in order, then,
if `CHECK_UNUSED_OPERAND_WORDS`, the unused words (R92, R244). -/
def decodeWindow (cfg : Config) (w : Window) : Except FailureKind Instr :=
  match decodeOpcode cfg.opcodes w with
  | .error k => .error k
  | .ok i =>
    if cfg.checkUnused && !valueWords (w.unused i.len) then .error .invalidOperand else .ok i

/-- The decoder on the words from `ip` to the end of memory: fewer than four are no window,
OutOfBounds (30_encoding.md R90). -/
def decodeWords (cfg : Config) : List Word → Except FailureKind Instr
  | w0 :: w1 :: w2 :: w3 :: _ => decodeWindow cfg ⟨w0, w1, w2, w3⟩
  | _ => .error .outOfBounds

/-- The decoder on bytes laid out as in the image (20_memory.md R57). -/
def decodeBytes (cfg : Config) (bs : List Byte) : Except FailureKind Instr :=
  decodeWords cfg (wordsOfBytes bs)

/-- The instruction the decoder reads from the low `nbits` bits of `w`, first word lowest, every bit
above `nbits` 0; the parameters at their defaults. -/
def decodeTableWord (nbits w : Nat) : Option Instr :=
  (decodeBytes Config.default (bytesOfNat 8 (w % 2 ^ nbits))).toOption

/-! ### The encoder -/

/-- The operand word of register `r`, `32768 + r` (10_state.md R23). -/
def encodeReg (r : Reg) : Word := BitVec.ofNat 16 (32768 + r.val)

/-- The operand word of a V operand (30_encoding.md R86). -/
def encodeOperand : Operand → Word
  | .lit n => n
  | .reg r => encodeReg r

/-- The row of an instruction in the opcode map (30_encoding.md R84), counted from 0. -/
def Instr.row : Instr → Fin 22
  | .halt => 0
  | .set _ _ => 1
  | .push _ => 2
  | .pop _ => 3
  | .eq _ _ _ => 4
  | .gt _ _ _ => 5
  | .jmp _ => 6
  | .jt _ _ => 7
  | .jf _ _ => 8
  | .add _ _ _ => 9
  | .mult _ _ _ => 10
  | .mod _ _ _ => 11
  | .and _ _ _ => 12
  | .or _ _ _ => 13
  | .not _ _ => 14
  | .rmem _ _ => 15
  | .wmem _ _ => 16
  | .call _ => 17
  | .ret => 18
  | .out _ => 19
  | .inp _ => 20
  | .noop => 21

/-- The opcode number of an instruction (30_encoding.md R84, U4). -/
def Instr.opcode (m : OpcodeMap) (i : Instr) : Word := m[i.row]

/-- The operand words of an instruction, in written order (30_encoding.md R81, R98). -/
def Instr.operandWords : Instr → List Word
  | .halt | .ret | .noop => []
  | .push a | .jmp a | .call a | .out a => [encodeOperand a]
  | .pop d | .inp d => [encodeReg d]
  | .set d b | .not d b | .rmem d b => [encodeReg d, encodeOperand b]
  | .jt a b | .jf a b | .wmem a b => [encodeOperand a, encodeOperand b]
  | .eq d b c | .gt d b c | .add d b c | .mult d b c | .mod d b c | .and d b c | .or d b c =>
    [encodeReg d, encodeOperand b, encodeOperand c]

/-- The words of an instruction: its opcode, then its operand words (30_encoding.md R80, R98). -/
def encode (m : OpcodeMap) (i : Instr) : List Word := i.opcode m :: i.operandWords

end Sys2Proof
end

