-- ==== Sys2Proof/Machine/State.lean ====
section
/-! DEFINITION. The state of the machine (10_state.md R37), as plain data, and its reset value
(70_reset_and_hazards.md R270); the reasons a step can stop. -/

namespace Sys2Proof.Machine

/-- How a run ended (10_state.md R33): Success or Failure(kind). -/
inductive Status where
  | success
  | failure (k : FailureKind)
deriving DecidableEq, Repr

/-- The run state (10_state.md R33, 40_execution_cycle.md R120). The source's running flag is true
exactly in `running`. -/
inductive RunState where
  | running
  | halted (st : Status)
deriving DecidableEq, Repr

/-- A host answer to an IN request (48_io.md R222). -/
inductive InResponse where
  | line (bytes : List Byte)
  | unavailable
deriving DecidableEq, Repr

/-- Memory as byte cells, addresses rising, no cell 0 (DESIGN CHOICE, log 1): word `a` is the image
bytes `2a` (low) and `2a + 1` (20_memory.md R57). An unlisted address reads as 0. -/
abbrev Memory := List Host.Cell

/-- The architectural state (10_state.md R37), with the record of IN exchanges that R129 of
40_execution_cycle.md observes, and the model's own `hostIn` and `cfg`. -/
structure State where
  /-- `x[0..7]` (10_state.md R22) -/
  regs : Vector Word 8
  /-- the instruction pointer, a word index (10_state.md R27, R28) -/
  ip : Nat
  /-- `MEM_LEN` (20_memory.md R50) -/
  memLen : Nat
  /-- the memory array (20_memory.md R50) -/
  mem : Memory
  /-- the call/data stack, top first (10_state.md R30) -/
  stack : List Word
  /-- the run state (10_state.md R33) -/
  run : RunState
  /-- the input byte queue, oldest first (10_state.md R34) -/
  inQueue : List Byte
  /-- the bytes sent on OUT, oldest first (48_io.md R221) -/
  outLog : List Byte
  /-- the IN exchanges that took place, oldest first (40_execution_cycle.md R129; log 7) -/
  inLog : List InResponse
  /-- the model's own: the answers the host still has to give, next first (DESIGN CHOICE, log 4) -/
  hostIn : List InResponse
  /-- the model's own: the parameters of 00_scope.md R7, the opcode map among them, which no step
  changes (log 3) -/
  cfg : Config
deriving DecidableEq, Repr

/-- Why a step stops with no next state. -/
inductive Fault where
  /-- Raised by `step` in a Halted state only: "Halted is terminal: no further cycles execute"
  (40_execution_cycle.md R120). Safe: the hardware does nothing there either (log 6). -/
  | halted
deriving DecidableEq, Repr

/-- Why an instruction has no meaning. -/
inductive Refusal where
  /-- Raised by an arm of `exec` for an instruction without a meaning; no arm does. Safe. -/
  | notModelled (mnemonic : String)
deriving DecidableEq, Repr

/-- The state after reset (70_reset_and_hazards.md R270) with the empty image, MEM_LEN = 0, and the
default parameters (DESIGN CHOICE, log 2); `State.load` is reset with any image. -/
def State.reset : State where
  regs := Vector.replicate 8 0
  ip := 0
  memLen := 0
  mem := []
  stack := []
  run := .running
  inQueue := []
  outLog := []
  inLog := []
  hostIn := []
  cfg := Config.default

end Sys2Proof.Machine
end

