-- ==== Sys2Proof/Machine/Operands.lean ====
section
/-! DEFINITION. The register bank (10_state.md R22, R24) and the values of operands
(30_encoding.md R87, R95). -/

namespace Sys2Proof.Machine

/-- `x[r]` (00_scope.md R9). -/
def State.reg (s : State) (r : Reg) : Word := s.regs[r]

/-- `x[r] <- v` (00_scope.md R9). No register is hardwired (10_state.md R22). -/
def State.setReg (s : State) (r : Reg) (v : Word) : State := { s with regs := s.regs.set r v }

/-- The word a V operand resolves to (30_encoding.md R87): the literal, or the register's contents,
which are not classified again. -/
def State.value (s : State) : Operand → Word
  | .lit n => n
  | .reg r => s.reg r

/-- `resolve_value` on a raw operand word (30_encoding.md R87). -/
def State.resolveValue (s : State) (n : Word) : Except FailureKind Word :=
  (decodeValue n).map s.value

end Sys2Proof.Machine
end

