-- ==== Sys2Proof/Machine/Ops.lean ====
section
/-! DEFINITION. The named operations the meanings share: memory and its two ports (20_memory.md), the
stack (10_state.md R30, R31, R32), the instruction pointer (40_execution_cycle.md R122, R123), the
IN and OUT ports (48_io.md), failing (40_execution_cycle.md R124), loading an image
(70_reset_and_hazards.md R270, R271), and fetching (30_encoding.md R90, R91). -/

namespace Sys2Proof.Machine

/-! ### Memory cells -/

/-- The byte at a byte address; an unlisted address reads as 0 (log 1). -/
def readByte : Memory → Nat → Byte
  | [], _ => 0
  | (k, v) :: rest, a => if k = a then v else readByte rest a

/-- Put the cell `(a, v)` before the first cell at a greater address. -/
def insertCell (a : Nat) (v : Byte) : Memory → Memory
  | [] => [(a, v)]
  | (k, w) :: rest => if a < k then (a, v) :: (k, w) :: rest else (k, w) :: insertCell a v rest

/-- Memory without the cells at byte address `a`. -/
def eraseCell (a : Nat) (m : Memory) : Memory := m.filter fun c => decide (c.1 ≠ a)

/-- Write one byte; a cell that would hold 0 is not listed (log 1). -/
def writeByte (m : Memory) (a : Nat) (v : Byte) : Memory :=
  if v = 0 then eraseCell a m else insertCell a v (eraseCell a m)

/-- The word at word index `a`: bytes `2a` and `2a + 1`, low byte first (20_memory.md R57). -/
def readWord (m : Memory) (a : Nat) : Word :=
  wordOfBytes (readByte m (2 * a)) (readByte m (2 * a + 1))

/-- Overwrite the word at word index `a` (20_memory.md R54, R57). -/
def writeWord (m : Memory) (a : Nat) (v : Word) : Memory :=
  writeByte (writeByte m (2 * a) (lowByte v)) (2 * a + 1) (highByte v)

/-- Write a sequence of words from word index `a` on. -/
def writeWords (m : Memory) (a : Nat) : List Word → Memory
  | [] => m
  | v :: vs => writeWords (writeWord m a v) (a + 1) vs

/-- Cells at rising addresses from `lo` on, none of them 0. -/
def Memory.wfFrom : Nat → Memory → Bool
  | _, [] => true
  | lo, (a, v) :: rest => decide (lo ≤ a) && decide (v ≠ 0) && Memory.wfFrom (a + 1) rest

/-- The canonical form of memory: addresses strictly rising, no cell equal to what an unlisted
address reads as (log 1). -/
def Memory.wf (m : Memory) : Bool := Memory.wfFrom 0 m

/-! ### The DATA port -/

/-- The word at index `a` of the memory array. -/
def State.word (s : State) (a : Nat) : Word := readWord s.mem a

/-- `MemRead(addr, 1)` (20_memory.md R53). -/
def State.memRead (s : State) (addr : Nat) : Except FailureKind Word :=
  if addr < s.memLen then .ok (s.word addr) else .error .outOfBounds

/-- `MemWrite(addr, 1, v)` (20_memory.md R54). -/
def State.memWrite (s : State) (addr : Nat) (v : Word) : Except FailureKind State :=
  if addr < s.memLen then .ok { s with mem := writeWord s.mem addr v } else .error .outOfBounds

/-! ### The stack -/

/-- The stack already holds `STACK_DEPTH` words (10_state.md R31); never so when it is unbounded. -/
def State.stackFull (s : State) : Bool :=
  match s.cfg.stackDepth with
  | none => false
  | some d => decide (d ≤ s.stack.length)

/-- `Push(v)` (00_scope.md R9): StackOverflow on a full stack, before any write (10_state.md R31). -/
def State.push (s : State) (v : Word) : Except FailureKind State :=
  if s.stackFull then .error .stackOverflow else .ok { s with stack := v :: s.stack }

/-- `Pop()` (00_scope.md R9, 10_state.md R32): the top word and the state without it, or EmptyStack. -/
def State.pop (s : State) : Except FailureKind (Word × State) :=
  match s.stack with
  | [] => .error .emptyStack
  | v :: rest => .ok (v, { s with stack := rest })

/-! ### The instruction pointer -/

/-- `ip <- ip + len` (40_execution_cycle.md R122), no wrap-around (10_state.md R28). -/
def State.advance (s : State) (len : Nat) : State := { s with ip := s.ip + len }

/-- `ip <- target` (40_execution_cycle.md R123). -/
def State.jump (s : State) (target : Word) : State := { s with ip := target.toNat }

/-! ### The OUT and IN ports -/

/-- `Out(b)` (48_io.md R220, R221): the host takes every byte (decision D10; log 17). -/
def State.send (s : State) (b : Byte) : State := { s with outLog := s.outLog ++ [b] }

/-- One IN exchange (48_io.md R222): the host's next answer and the state after the exchange; `none`
while the host has given no answer (DESIGN CHOICE, log 4). -/
def State.readLine (s : State) : Option (InResponse × State) :=
  match s.hostIn with
  | [] => none
  | r :: rest => some (r, { s with hostIn := rest, inLog := s.inLog ++ [r] })

/-- What asking for the next input byte comes to (48_io.md R223): a byte, a failure, or a wait for the
host. -/
inductive InputByte where
  | byte (b : Byte) (s : State)
  | unavailable (s : State)
  | waiting
deriving DecidableEq, Repr

/-- The next input byte (48_io.md R223): from the queue if it holds one, with no IN exchange; else from
the line of one IN exchange, whose other bytes are queued. A line of no bytes counts as Unavailable
(R222, decision D9). -/
def State.nextByte (s : State) : InputByte :=
  match s.inQueue with
  | b :: rest => .byte b { s with inQueue := rest }
  | [] =>
    match s.readLine with
    | none => .waiting
    | some (.line (b :: rest), t) => .byte b { t with inQueue := rest }
    | some (.line [], t) => .unavailable t
    | some (.unavailable, t) => .unavailable t

/-! ### Failing

Taking a failure is the machine's only exception (60_exceptions.md R241, R247): it saves nothing and
goes nowhere. There is no return from it (R248). -/

/-- `raise Fault(k)` (00_scope.md R9, 40_execution_cycle.md R124): Halted with Failure(k), everything
else as it stands. -/
def State.fail (s : State) (k : FailureKind) : State := { s with run := .halted (.failure k) }

/-- End of a cycle whose handler ran on `s`, the state with `ip` advanced (40_execution_cycle.md R121,
R127): the handler's state, or the failure it raised. -/
def handled (s : State) : Except FailureKind State → Host.Outcome State Fault Refusal
  | .ok t => .next t
  | .error k => .next (s.fail k)

/-- The status codes (60_exceptions.md R240, decision D11): labels, which no step depends on. -/
def failureCode : FailureKind → Nat
  | .outOfBounds => 1
  | .invalidOperand => 2
  | .unknownOpcode => 3
  | .emptyStack => 4
  | .inputUnavailable => 5
  | .divisionByZero => 6
  | .stackOverflow => 7

/-- What STATUS reports (00_scope.md R6, 60_exceptions.md R240): nothing while Running, else the
code of the terminal status. -/
def State.statusCode (s : State) : Option Nat :=
  match s.run with
  | .running => none
  | .halted .success => some 0
  | .halted (.failure k) => some (failureCode k)

/-! ### LOAD -/

/-- The cells of an image whose first byte stands at byte address `a`. -/
def cellsOf (a : Nat) : List Byte → Memory
  | [] => []
  | b :: rest => if b = 0 then cellsOf (a + 1) rest else (a, b) :: cellsOf (a + 1) rest

/-- Reset with an image (70_reset_and_hazards.md R270, R271): refused when its byte count is odd or it
holds more than 65536 words (decision D7); the parameters are the machine's. -/
def State.load (cfg : Config) (image : List Byte) : Option State :=
  if image.length % 2 = 0 ∧ image.length / 2 ≤ 65536 then
    some { State.reset with memLen := image.length / 2, mem := cellsOf 0 image, cfg := cfg }
  else none

/-- The host's answers to come, one more batch of them (48_io.md R222). -/
def State.withAnswers (s : State) (rs : List InResponse) : State :=
  { s with hostIn := s.hostIn ++ rs }

/-! ### FETCH -/

/-- `MemRead(ip, 4)` (20_memory.md R55, 30_encoding.md R90). -/
def State.fetch (s : State) : Except FailureKind Window :=
  if s.ip + 4 ≤ s.memLen then
    .ok ⟨s.word s.ip, s.word (s.ip + 1), s.word (s.ip + 2), s.word (s.ip + 3)⟩
  else .error .outOfBounds

/-- `Decode(ip)` (30_encoding.md R91). -/
def State.decodeNext (s : State) : Except FailureKind Instr :=
  match s.fetch with
  | .error k => .error k
  | .ok w => decodeWindow s.cfg w

/-- The state with the four words `ws` of a decode window at `ip`, the memory long enough to hold them,
and Running (log 26). -/
def State.placeWindow (s : State) (ws : List Word) : State :=
  { s with
    mem := writeWords s.mem s.ip ws
    memLen := max s.memLen (s.ip + 4)
    run := .running }

end Sys2Proof.Machine
end

