-- ==== Sys2Proof/Machine/Alu.lean ====
section
/-! DEFINITION. The ALU: `add`, `mult`, `mod`, `and`, `or`, `not` (45_alu.md). Sums and products are
formed on naturals and reduced at the end (00_scope.md R8). -/

namespace Sys2Proof.Machine

/-- `(op1 + op2) mod 32768` (45_alu.md R180). -/
def aluAdd (a b : Word) : Word := BitVec.ofNat 16 ((a.toNat + b.toNat) % 32768)

/-- `(op1 * op2) mod 32768` (45_alu.md R181). -/
def aluMult (a b : Word) : Word := BitVec.ofNat 16 ((a.toNat * b.toNat) % 32768)

/-- `op1 mod op2`, unsigned and not reduced further; DivisionByZero when `op2 = 0` (45_alu.md R182,
decision D5; log 12). -/
def aluMod (a b : Word) : Except FailureKind Word :=
  if b = 0 then .error .divisionByZero else .ok (BitVec.ofNat 16 (a.toNat % b.toNat))

/-- `op1 & op2` on 16 bits (45_alu.md R183). -/
def aluAnd (a b : Word) : Word := a &&& b

/-- The 16-bit bitwise OR of `op1` and `op2` (45_alu.md R184). -/
def aluOr (a b : Word) : Word := a ||| b

/-- `(~op1) & 0x7FFF` (45_alu.md R185). -/
def aluNot (a : Word) : Word := ~~~a &&& 0x7FFF

/-- `add reg, op1, op2` (45_alu.md R180). -/
def execAdd (d : Reg) (a b : Operand) (s : State) : Host.Outcome State Fault Refusal :=
  .next ((s.advance (Instr.add d a b).len).setReg d (aluAdd (s.value a) (s.value b)))

/-- `mult reg, op1, op2` (45_alu.md R181). -/
def execMult (d : Reg) (a b : Operand) (s : State) : Host.Outcome State Fault Refusal :=
  .next ((s.advance (Instr.mult d a b).len).setReg d (aluMult (s.value a) (s.value b)))

/-- `mod reg, op1, op2` (45_alu.md R182). -/
def execMod (d : Reg) (a b : Operand) (s : State) : Host.Outcome State Fault Refusal :=
  handled (s.advance (Instr.mod d a b).len)
    ((aluMod (s.value a) (s.value b)).map ((s.advance (Instr.mod d a b).len).setReg d))

/-- `and reg, op1, op2` (45_alu.md R183). -/
def execAnd (d : Reg) (a b : Operand) (s : State) : Host.Outcome State Fault Refusal :=
  .next ((s.advance (Instr.and d a b).len).setReg d (aluAnd (s.value a) (s.value b)))

/-- `or reg, op1, op2` (45_alu.md R184). -/
def execOr (d : Reg) (a b : Operand) (s : State) : Host.Outcome State Fault Refusal :=
  .next ((s.advance (Instr.or d a b).len).setReg d (aluOr (s.value a) (s.value b)))

/-- `not reg, op1` (45_alu.md R185). -/
def execNot (d : Reg) (a : Operand) (s : State) : Host.Outcome State Fault Refusal :=
  .next ((s.advance (Instr.not d a).len).setReg d (aluNot (s.value a)))

end Sys2Proof.Machine
end

