-- ==== Sys2Proof/Machine/CallRet.lean ====
section
/-! DEFINITION. Call and return: `call`, `ret` (47_call_return.md). -/

namespace Sys2Proof.Machine

/-- The word `call` pushes: the advanced `ip` (47_call_return.md R210). It fits in a word whenever the
decode succeeded in a memory of at most 65536 words (10_state.md R28); in a longer memory, which no
load makes, its low 16 bits are pushed (DESIGN CHOICE, log 19). -/
def returnWord (ip : Nat) : Word := BitVec.ofNat 16 ip

/-- `call addr` (47_call_return.md R210). -/
def execCall (a : Operand) (s : State) : Host.Outcome State Fault Refusal :=
  handled (s.advance (Instr.call a).len)
    (((s.advance (Instr.call a).len).push (returnWord (s.advance (Instr.call a).len).ip)).map
      fun t => t.jump (s.value a))

/-- `ret` (47_call_return.md R211). -/
def execRet (s : State) : Host.Outcome State Fault Refusal :=
  handled (s.advance Instr.ret.len)
    ((s.advance Instr.ret.len).pop.map fun p => p.2.jump p.1)

end Sys2Proof.Machine
end

