-- ==== Sys2Proof/Machine/Flags.lean ====
section
/-! DEFINITION. The machine has no flags (10_state.md R35): a comparison writes its Boolean result, 0
or 1, to a register (43_compare.md R160, R161), and a conditional jump tests a value
(44_jumps.md R171, R172). This file holds those Boolean results. -/

namespace Sys2Proof.Machine

/-- A Boolean as a word: 1 or 0 (10_state.md R35). -/
def boolWord (b : Bool) : Word := if b then 1 else 0

/-- `op1 = op2` on full 16-bit words (43_compare.md R160). -/
def eqWord (a b : Word) : Word := boolWord (decide (a = b))

/-- `op1 > op2`, unsigned (43_compare.md R161). -/
def gtWord (a b : Word) : Word := boolWord (decide (b.toNat < a.toNat))

/-- A condition is true when it is not zero (44_jumps.md R171). -/
def truth (cond : Word) : Bool := decide (cond ≠ 0)

end Sys2Proof.Machine
end

