-- ==== Sys2Proof/Machine/Compare.lean ====
section
/-! DEFINITION. Comparison: `eq`, `gt` (43_compare.md). -/

namespace Sys2Proof.Machine

/-- `eq reg, op1, op2` (43_compare.md R160). -/
def execEq (d : Reg) (a b : Operand) (s : State) : Host.Outcome State Fault Refusal :=
  .next ((s.advance (Instr.eq d a b).len).setReg d (eqWord (s.value a) (s.value b)))

/-- `gt reg, op1, op2` (43_compare.md R161). -/
def execGt (d : Reg) (a b : Operand) (s : State) : Host.Outcome State Fault Refusal :=
  .next ((s.advance (Instr.gt d a b).len).setReg d (gtWord (s.value a) (s.value b)))

end Sys2Proof.Machine
end

