-- ==== Sys2Proof/Machine/Control.lean ====
section
/-! DEFINITION. Machine control: `halt`, `noop` (41_machine_control.md). -/

namespace Sys2Proof.Machine

/-- `halt` (41_machine_control.md R140, 40_execution_cycle.md R125). -/
def execHalt (s : State) : Host.Outcome State Fault Refusal :=
  .next { s.advance Instr.halt.len with run := .halted .success }

/-- `noop` (41_machine_control.md R141). -/
def execNoop (s : State) : Host.Outcome State Fault Refusal :=
  .next (s.advance Instr.noop.len)

end Sys2Proof.Machine
end

