-- ==== Sys2Proof/Machine/Io.lean ====
section
/-! DEFINITION. Character I/O: `out`, `in` (48_io.md). -/

namespace Sys2Proof.Machine

/-- `out char` (48_io.md R220): the low byte is sent. -/
def execOut (c : Operand) (s : State) : Host.Outcome State Fault Refusal :=
  .next ((s.advance (Instr.out c).len).send (lowByte (s.value c)))

/-- `in reg` (48_io.md R223). While the host has not answered, the cycle does not complete (R222): the
state stays as it was, and the next step asks again (DESIGN CHOICE, log 5). -/
def execIn (d : Reg) (s : State) : Host.Outcome State Fault Refusal :=
  match (s.advance (Instr.inp d).len).nextByte with
  | .byte b t => .next (t.setReg d (zext16 b))
  | .unavailable t => .next (t.fail .inputUnavailable)
  | .waiting => .next s

end Sys2Proof.Machine
end

