-- ==== Sys2Proof/Machine/Jumps.lean ====
section
/-! DEFINITION. Jumps: `jmp`, `jt`, `jf` (44_jumps.md). A target is absolute and is not checked when
the jump is taken. -/

namespace Sys2Proof.Machine

/-- `jmp target` (44_jumps.md R170). -/
def execJmp (t : Operand) (s : State) : Host.Outcome State Fault Refusal :=
  .next ((s.advance (Instr.jmp t).len).jump (s.value t))

/-- `jt cond, target` (44_jumps.md R171). -/
def execJt (c t : Operand) (s : State) : Host.Outcome State Fault Refusal :=
  .next (if truth (s.value c) then (s.advance (Instr.jt c t).len).jump (s.value t)
    else s.advance (Instr.jt c t).len)

/-- `jf cond, target` (44_jumps.md R172). -/
def execJf (c t : Operand) (s : State) : Host.Outcome State Fault Refusal :=
  .next (if truth (s.value c) then s.advance (Instr.jf c t).len
    else (s.advance (Instr.jf c t).len).jump (s.value t))

end Sys2Proof.Machine
end

