-- ==== Sys2Proof/Machine/MemAccess.lean ====
section
/-! DEFINITION. Memory access: `rmem`, `wmem` (46_memory_access.md), through the DATA port. -/

namespace Sys2Proof.Machine

/-- `rmem reg, addr` (46_memory_access.md R200): a raw copy, or OutOfBounds. -/
def execRmem (d : Reg) (a : Operand) (s : State) : Host.Outcome State Fault Refusal :=
  handled (s.advance (Instr.rmem d a).len)
    ((s.memRead (s.value a).toNat).map ((s.advance (Instr.rmem d a).len).setReg d))

/-- `wmem addr, val` (46_memory_access.md R201), or OutOfBounds. -/
def execWmem (a v : Operand) (s : State) : Host.Outcome State Fault Refusal :=
  handled (s.advance (Instr.wmem a v).len)
    ((s.advance (Instr.wmem a v).len).memWrite (s.value a).toNat (s.value v))

end Sys2Proof.Machine
end

