-- ==== Sys2Proof/Machine/RegStack.lean ====
section
/-! DEFINITION. Register move and stack: `set`, `push`, `pop` (42_register_stack.md). -/

namespace Sys2Proof.Machine

/-- `set reg, val` (42_register_stack.md R150). -/
def execSet (d : Reg) (v : Operand) (s : State) : Host.Outcome State Fault Refusal :=
  .next ((s.advance (Instr.set d v).len).setReg d (s.value v))

/-- `push val` (42_register_stack.md R151). -/
def execPush (v : Operand) (s : State) : Host.Outcome State Fault Refusal :=
  handled (s.advance (Instr.push v).len) ((s.advance (Instr.push v).len).push (s.value v))

/-- `pop reg` (42_register_stack.md R152). -/
def execPop (d : Reg) (s : State) : Host.Outcome State Fault Refusal :=
  handled (s.advance (Instr.pop d).len)
    ((s.advance (Instr.pop d).len).pop.map fun p => p.2.setReg d p.1)

end Sys2Proof.Machine
end

