-- ==== Sys2Proof/Machine/Step.lean ====
section
/-! DEFINITION. One step: one cycle of the execution state machine (40_execution_cycle.md R121, R127,
70_reset_and_hazards.md R275). -/

namespace Sys2Proof.Machine

/-- `Step` (40_execution_cycle.md R127): decode, then run the instruction. A decode failure is taken
with `ip` at the failing instruction (R124). There is no step from Halted (R120). -/
def step (s : State) : Host.Outcome State Fault Refusal :=
  match s.run with
  | .halted _ => .fault .halted
  | .running =>
    match s.decodeNext with
    | .error k => .next (s.fail k)
    | .ok i => exec i s

/-- `s` with the instruction whose low `nbits` bits are `w` (the bits above 0) in the decode window at
`ip`. It stands for LOAD of a program (70_reset_and_hazards.md R270): MEM_LEN grows to hold the
window, and the machine is Running (log 2, log 26). -/
def State.withFetchWord (s : State) (nbits w : Nat) : State :=
  s.placeWindow (wordsOfBytes (bytesOfNat 8 (w % 2 ^ nbits)))

end Sys2Proof.Machine
end

