-- ==== Sys2Proof/Safety.lean ====
section
/-! DEFINITION. The terms claims use: the invariant of the machine, the states a run reaches, waiting
for the host, what the operand words at `ip` say (read straight from memory, beside the decoder), and
the shape of an instruction's rule. -/

namespace Sys2Proof.Machine

/-! ### The invariant -/

/-- A line as the host may answer it (48_io.md R222): not empty, and no byte 10 before its last byte. -/
def legalLine (bs : List Byte) : Bool := !bs.isEmpty && !bs.dropLast.contains 10

/-- A line that ends in byte 10; another is the final line of the input (48_io.md R222). -/
def terminated (bs : List Byte) : Bool := bs.getLast? == some 10

/-- Answers as a host gives them (48_io.md R222): legal lines and Unavailable, and only Unavailable
after a line without a newline. -/
def legalAnswers : List InResponse → Bool
  | [] => true
  | .unavailable :: rest => legalAnswers rest
  | .line bs :: rest =>
    legalLine bs && (terminated bs || rest.all fun r => decide (r = .unavailable)) && legalAnswers rest

/-- The invariant of the machine. -/
structure State.Inv (s : State) : Prop where
  /-- memory is in canonical form (log 1) -/
  memCanonical : Memory.wf s.mem = true
  /-- no cell lies outside `[0, MEM_LEN)` (20_memory.md R50, R61) -/
  memInside : ∀ c ∈ s.mem, c.1 < 2 * s.memLen
  /-- `MEM_LEN` is at most 65536 (decision D7) -/
  memSize : s.memLen ≤ 65536
  /-- `ip` is at most 65536 (10_state.md R28, R37) -/
  ipBound : s.ip ≤ 65536
  /-- the stack holds at most `STACK_DEPTH` words (10_state.md R31, R37) -/
  stackBound : ∀ d, s.cfg.stackDepth = some d → s.stack.length ≤ d
  /-- the queue is the rest of one line: no byte 10 before its last byte (48_io.md R222, R223) -/
  queueLine : s.inQueue.dropLast.contains 10 = false
  /-- the answers to come are ones a host may give (48_io.md R222) -/
  answersLegal : legalAnswers s.hostIn = true
  /-- the opcode map tells the 22 opcodes apart (30_encoding.md R84, U4; log 8) -/
  opcodesDistinct : s.cfg.wf = true

/-- The states a run reaches: from a load of any image under any opcode map, with any legal answers of the host arriving
between steps. -/
inductive Reachable : State → Prop where
  | load (cfg : Config) (image : List Byte) (s : State) :
      cfg.wf = true → State.load cfg image = some s → Reachable s
  | answers (s : State) (rs : List InResponse) :
      Reachable s → legalAnswers (s.hostIn ++ rs) = true → Reachable (s.withAnswers rs)
  | step (s t : State) : Reachable s → step s = .next t → Reachable t

/-- A safe state: a run that has not failed. -/
def State.safe (s : State) : Bool :=
  match s.run with
  | .halted (.failure _) => false
  | _ => true

/-- The machine waits for the host (48_io.md R222, R225): Running, at an `in`, the queue empty and
no answer given. -/
def State.awaitingInput (s : State) : Prop :=
  s.run = .running ∧ (∃ d, s.decodeNext = .ok (.inp d)) ∧ s.inQueue = [] ∧ s.hostIn = []

/-! ### The words at the instruction pointer -/

/-- Word `k` of the decode window (30_encoding.md R81). -/
def State.windowWord (s : State) (k : Nat) : Word := s.word (s.ip + k)

/-- The operand words a role accepts (30_encoding.md R87, R88, R96). -/
def roleAccepts : Role → Word → Bool
  | .dest, n => decide (32768 ≤ n.toNat ∧ n.toNat ≤ 32775)
  | .value, n => decide (n.toNat ≤ 32775)

/-- Window words `k`, `k + 1`, … suit the roles listed. -/
def State.operandsRight (s : State) : Nat → List Role → Bool
  | _, [] => true
  | k, r :: rs => roleAccepts r (s.windowWord k) && s.operandsRight (k + 1) rs

/-- With `CHECK_UNUSED_OPERAND_WORDS`, every window word from `len` on is one `resolve_value` accepts
(30_encoding.md R91, R92). -/
def State.unusedRight (s : State) (len : Nat) : Bool :=
  !s.cfg.checkUnused || (List.range 4).all fun k => decide (k < len) || roleAccepts .value (s.windowWord k)

/-- The register that window word `k` names (30_encoding.md R88). -/
def State.destAt (s : State) (k : Nat) : Reg := Fin.ofNat 8 ((s.windowWord k).toNat - 32768)

/-- The value that window word `k` resolves to, as a natural number (30_encoding.md R87). -/
def State.valueAt (s : State) (k : Nat) : Nat :=
  if (s.windowWord k).toNat ≤ 32767 then (s.windowWord k).toNat else (s.reg (s.destAt k)).toNat

/-- The state a failure of kind `k` leaves when nothing else of the cycle has happened. -/
def State.failed (s : State) (k : FailureKind) : State := { s with run := .halted (.failure k) }

/-- The state a failure of kind `k` leaves when the handler of an instruction of `len` words raises it:
`ip` is advanced and nothing else is written (40_execution_cycle.md R124). -/
def State.failedAfter (s : State) (len : Nat) (k : FailureKind) : State :=
  { s with ip := s.ip + len, run := .halted (.failure k) }

/-- The rule of one instruction, in the shape of 41_machine_control.md's template. `row` is its row in
the opcode map, which is its number by default (30_encoding.md R84, D1). Under any opcode map that
tells the opcodes apart (U4), in a Running state whose opcode word is the map's number for `row`, a
window that does not fit fails with OutOfBounds, an operand word wrong for its role (or, if the
parameter says so, an unused word that is no value) fails with InvalidOperand, both with nothing else
changed; otherwise `effect` holds. -/
def InstructionRule (row : Fin 22) (roles : List Role) (effect : State → Prop) : Prop :=
  (defaultOpcodes[row]).toNat = row ∧
  ∀ s : State, s.run = .running → s.cfg.wf = true → s.windowWord 0 = s.cfg.opcodes[row] →
    (s.memLen < s.ip + 4 → step s = .next (s.failed .outOfBounds)) ∧
    (s.ip + 4 ≤ s.memLen → (s.operandsRight 1 roles && s.unusedRight (roles.length + 1)) = false →
      step s = .next (s.failed .invalidOperand)) ∧
    (s.ip + 4 ≤ s.memLen → (s.operandsRight 1 roles && s.unusedRight (roles.length + 1)) = true →
      effect s)

/-! ### Frames -/

/-- `t` differs from `s` in register `d` and `ip` at most. -/
def OnlyRegister (d : Reg) (s t : State) : Prop :=
  t = { s with ip := t.ip, regs := t.regs } ∧ ∀ r, r ≠ d → t.reg r = s.reg r

/-- `t` differs from `s` in `ip` at most. -/
def OnlyIp (s t : State) : Prop := t = { s with ip := t.ip }

/-- `t` differs from `s` in the stack and `ip` at most. -/
def OnlyStack (s t : State) : Prop := t = { s with ip := t.ip, stack := t.stack }

/-- `t` differs from `s` in register `d`, the stack and `ip` at most. -/
def OnlyRegisterAndStack (d : Reg) (s t : State) : Prop :=
  t = { s with ip := t.ip, regs := t.regs, stack := t.stack } ∧ ∀ r, r ≠ d → t.reg r = s.reg r

/-- `t` differs from `s` in `ip` and the two bytes of word `a` of memory at most. -/
def OnlyMemoryWord (a : Nat) (s t : State) : Prop :=
  t = { s with ip := t.ip, mem := t.mem } ∧
    ∀ b, b ≠ 2 * a → b ≠ 2 * a + 1 → readByte t.mem b = readByte s.mem b

/-- `t` differs from `s` in the output log and `ip` at most. -/
def OnlyOutput (s t : State) : Prop := t = { s with ip := t.ip, outLog := t.outLog }

/-- `t` differs from `s` in register `d`, the input queue and `ip` at most. -/
def OnlyRegisterAndQueue (d : Reg) (s t : State) : Prop :=
  t = { s with ip := t.ip, regs := t.regs, inQueue := t.inQueue } ∧ ∀ r, r ≠ d → t.reg r = s.reg r

/-- `t` differs from `s` in register `d`, the input queue, one IN exchange and `ip` at most. -/
def OnlyRegisterAndInput (d : Reg) (s t : State) : Prop :=
  t = { s with
    ip := t.ip, regs := t.regs, inQueue := t.inQueue, hostIn := t.hostIn, inLog := t.inLog } ∧
    ∀ r, r ≠ d → t.reg r = s.reg r

/-- Run a list of instructions one after another, for laws about a sequence of them. -/
def execAll : List Instr → State → Host.Outcome State Fault Refusal
  | [], s => .next s
  | i :: is, s =>
    match exec i s with
    | .next t => execAll is t
    | .fault f => .fault f
    | .refused r => .refused r

/-- The register an instruction writes (10_state.md R24), if it writes one. -/
def destination : Instr → Option Reg
  | .set d _ | .pop d | .not d _ | .rmem d _ | .inp d => some d
  | .eq d _ _ | .gt d _ _ | .add d _ _ | .mult d _ _ | .mod d _ _ | .and d _ _ | .or d _ _ => some d
  | .halt | .push _ | .jmp _ | .jt _ _ | .jf _ _ | .wmem _ _ | .call _ | .ret | .out _ | .noop => none

/-- The value operands of an instruction (30_encoding.md R84). -/
def valueOperands : Instr → List Operand
  | .halt | .ret | .noop | .pop _ | .inp _ => []
  | .set _ b | .not _ b | .rmem _ b => [b]
  | .push a | .jmp a | .call a | .out a => [a]
  | .jt a b | .jf a b | .wmem a b => [a, b]
  | .eq _ b c | .gt _ b c | .add _ b c | .mult _ b c | .mod _ b c | .and _ b c | .or _ b c => [b, c]

end Sys2Proof.Machine
end

