-- ==== Sys2Proof/Certificates/Slice0/Obligations.lean ====
section
/-! DEFINITION. The statements for the provers. `InstructionRule`, the frames and the readers of the
words at `ip` are in Sys2Proof/Safety.lean. The opcode numbers are a parameter
(93_implementation_defined.md U4), by default those of 30_encoding.md R84, which the spec itself
decides (92_eei_decisions.md D1; log 8). -/

open Sys2Proof Sys2Proof.Machine

/-! ### Reset and load -/

/-- 10_state.md R26 and R29: at reset every register is 0, `ip` is 0 and the state is Running. -/
def Obligations.ResetClearsRegistersAndIp : Prop :=
  (∀ r, State.reset.reg r = 0) ∧ State.reset.ip = 0 ∧ State.reset.run = .running

/-- 70_reset_and_hazards.md R271 (with R270's reset values): an image with an odd byte count or of more
than 65536 words is refused; any other gives the reset state with word `i` = `byte[2i] + 256 *
byte[2i+1]`; the empty image is admitted and its first cycle fails with OutOfBounds. -/
def Obligations.LoadGivesTheImageWords : Prop :=
  ∀ (cfg : Config) (image : List Byte),
    ((image.length % 2 = 1 ∨ 65536 < image.length / 2) → State.load cfg image = none) ∧
    (image.length % 2 = 0 → image.length / 2 ≤ 65536 → ∃ s, State.load cfg image = some s ∧
      s.memLen = image.length / 2 ∧
      (∀ i, i < s.memLen →
        (s.word i).toNat = (image.getD (2 * i) 0).toNat + 256 * (image.getD (2 * i + 1) 0).toNat) ∧
      (∀ r, s.reg r = 0) ∧ s.ip = 0 ∧ s.stack = [] ∧ s.run = .running ∧ s.inQueue = [] ∧
      s.outLog = [] ∧ s.cfg = cfg ∧
      (image = [] → step s = .next (s.failed .outOfBounds)))

/-! ### The invariant -/

/-- The state at reset meets the invariant. -/
def Obligations.ResetMeetsInvariant : Prop := State.reset.Inv

/-- Every loaded state meets the invariant (20_memory.md R50, R57, 10_state.md R28, R37), if the opcode
map tells the opcodes apart. -/
def Obligations.LoadedStateMeetsInvariant : Prop :=
  ∀ (cfg : Config) (image : List Byte) (s : State), cfg.wf = true → State.load cfg image = some s → s.Inv

/-- Every step keeps the invariant: memory canonical and inside `[0, MEM_LEN)`, `ip` at most 65536
(10_state.md R28), the stack within STACK_DEPTH (R31), the queue the rest of one line
(48_io.md R222, R223), the opcode map one that tells the opcodes apart (30_encoding.md R84). -/
def Obligations.StepKeepsInvariant : Prop :=
  ∀ s t : State, s.Inv → step s = .next t → t.Inv

/-- Every state of every run meets the invariant. -/
def Obligations.ReachableStatesMeetInvariant : Prop := ∀ s : State, Reachable s → s.Inv

/-! ### Encoding -/

/-- Under any opcode map that tells the opcodes apart, decoding the encoding of any well-formed
instruction, with any words after it, gives it back; if unused words are checked, those in the window
must be ones `resolve_value` accepts (30_encoding.md R80 to R92). -/
def Obligations.DecodeOfEncodeIsIdentity : Prop :=
  ∀ (i : Instr) (cfg : Config) (rest : List Word), cfg.wf = true → i.wf = true →
    4 ≤ (encode cfg.opcodes i ++ rest).length →
    (cfg.checkUnused = true → valueWords (rest.take (4 - i.len)) = true) →
    decodeWords cfg (encode cfg.opcodes i ++ rest) = .ok i ∧
    decodeBytes cfg (bytesOfWords (encode cfg.opcodes i ++ rest)) = .ok i

/-- Whatever window decodes to an instruction begins with exactly that instruction's encoding
(30_encoding.md R91, R96). -/
def Obligations.DecodedWindowIsAnEncoding : Prop :=
  ∀ (cfg : Config) (w : Window) (i : Instr), decodeWindow cfg w = .ok i →
    i.wf = true ∧ [w.w0, w.w1, w.w2, w.w3].take i.len = encode cfg.opcodes i ∧
    (cfg.checkUnused = true → valueWords (w.unused i.len) = true)

/-- The default opcode map, row by row (30_encoding.md R84, 92_eei_decisions.md D1): opcode `k` with
operand words that name register 0 is the instruction of row `k`. -/
def Obligations.DefaultOpcodeMapIsTheRowOrder : Prop :=
  (List.range 22).map (fun k =>
      (decodeWindow Config.default ⟨BitVec.ofNat 16 k, 32768, 32768, 32768⟩).toOption) =
    [.halt, .set 0 (.reg 0), .push (.reg 0), .pop 0, .eq 0 (.reg 0) (.reg 0),
      .gt 0 (.reg 0) (.reg 0), .jmp (.reg 0), .jt (.reg 0) (.reg 0), .jf (.reg 0) (.reg 0),
      .add 0 (.reg 0) (.reg 0), .mult 0 (.reg 0) (.reg 0), .mod 0 (.reg 0) (.reg 0),
      .and 0 (.reg 0) (.reg 0), .or 0 (.reg 0) (.reg 0), .not 0 (.reg 0), .rmem 0 (.reg 0),
      .wmem (.reg 0) (.reg 0), .call (.reg 0), .ret, .out (.reg 0), .inp 0, .noop].map some

/-- The example encodings of 30_encoding.md R99, one word sequence of each format, decode to the
instructions they stand for (derived from R84 and R98). -/
def Obligations.ExampleEncodingsDecode : Prop :=
  decodeWords Config.default [1, 32768, 5, 0] = .ok (.set 0 (.lit 5)) ∧
  decodeWords Config.default [9, 32769, 32769, 32767] = .ok (.add 1 (.reg 1) (.lit 32767)) ∧
  decodeWords Config.default [7, 32770, 100, 0] = .ok (.jt (.reg 2) (.lit 100)) ∧
  decodeWords Config.default [0, 0, 0, 0] = .ok .halt ∧
  decodeWords Config.default [20, 32775, 40000, 0] = .ok (.inp 7)

/-- A well-formed instruction whose words stand at `ip`, in a window that fits, is the one the step
runs: the step is `exec` of it at that state (40_execution_cycle.md R121, R127). -/
def Obligations.StepRunsTheDecodedInstruction : Prop :=
  ∀ (s : State) (i : Instr), s.run = .running → s.cfg.wf = true → i.wf = true → s.ip + 4 ≤ s.memLen →
    (∀ k, k < i.len → s.windowWord k = (encode s.cfg.opcodes i).getD k 0) →
    s.unusedRight i.len = true →
    step s = exec i s

/-- The model's own loading of one window (log 26): the instruction placed at `ip` is the next to run. -/
def Obligations.PlacedInstructionIsNextToRun : Prop :=
  ∀ (s : State) (i : Instr) (pad : List Word), s.cfg.wf = true → i.wf = true →
    (encode s.cfg.opcodes i ++ pad).length = 4 → (s.cfg.checkUnused = true → valueWords pad = true) →
    step (s.placeWindow (encode s.cfg.opcodes i ++ pad)) =
      exec i (s.placeWindow (encode s.cfg.opcodes i ++ pad))

/-! ### Fetch, operand resolution, decode failures -/

/-- 30_encoding.md R90: the window check is `ip + 4 > MEM_LEN`, for every opcode; a window that fits is
the four words from `ip` on. -/
def Obligations.WindowIsCheckedThenRead : Prop :=
  ∀ s : State, s.run = .running →
    (s.memLen < s.ip + 4 → step s = .next (s.failed .outOfBounds)) ∧
    (s.ip + 4 ≤ s.memLen →
      s.fetch = .ok ⟨s.word s.ip, s.word (s.ip + 1), s.word (s.ip + 2), s.word (s.ip + 3)⟩)

/-- 30_encoding.md R85: the opcode word is compared raw against the map's 22 numbers, and raises
UnknownOpcode exactly when it is none of them; with the default numbers (R84, D1) that is every word
22..65535, register references among them, and no other. -/
def Obligations.OpcodeWordsAboveTwentyOneFail : Prop :=
  ∀ s : State, s.run = .running → s.ip + 4 ≤ s.memLen →
    (step s = .next (s.failed .unknownOpcode) ↔ s.windowWord 0 ∉ s.cfg.opcodes.toList) ∧
    (s.cfg.opcodes = defaultOpcodes →
      (step s = .next (s.failed .unknownOpcode) ↔ 22 ≤ (s.windowWord 0).toNat))

/-- 30_encoding.md R87 and R88: the two resolution functions, on every operand word. -/
def Obligations.OperandWordsResolveByClass : Prop :=
  ∀ (s : State) (n : Word),
    (n.toNat ≤ 32767 → s.resolveValue n = .ok n) ∧
    (∀ r : Reg, n.toNat = 32768 + r.val → s.resolveValue n = .ok (s.reg r)) ∧
    (32776 ≤ n.toNat → s.resolveValue n = .error .invalidOperand) ∧
    (∀ r : Reg, n.toNat = 32768 + r.val → decodeDest n = .ok r) ∧
    (n.toNat < 32768 ∨ 32776 ≤ n.toNat → decodeDest n = .error .invalidOperand)

/-- 30_encoding.md R92: by default the words past the encoded length do not matter; with the parameter
an invalid one raises InvalidOperand; the parameter never changes a successful decode. -/
def Obligations.UnusedWordsMatterOnlyWhenChecked : Prop :=
  ∀ (cfg : Config) (w : Window) (i : Instr),
    (decodeWindow { cfg with checkUnused := false } w = .ok i → ∀ v : Window,
      [v.w0, v.w1, v.w2, v.w3].take i.len = [w.w0, w.w1, w.w2, w.w3].take i.len →
      decodeWindow { cfg with checkUnused := false } v = .ok i) ∧
    (decodeWindow { cfg with checkUnused := false } w = .ok i →
      decodeWindow { cfg with checkUnused := true } w =
        if ∀ n ∈ [w.w0, w.w1, w.w2, w.w3].drop i.len, n.toNat ≤ 32775 then .ok i
        else .error .invalidOperand) ∧
    (decodeWindow { cfg with checkUnused := true } w = .ok i →
      decodeWindow { cfg with checkUnused := false } w = .ok i)

/-! ### The cycle -/

/-- From Halted there is no step (40_execution_cycle.md R120); from Running there is one: a failure is a
next state too (R121, R124, R127), and so, by the model's choice (log 5), is the waiting of an `in`
whose cycle does not complete (48_io.md R222). -/
def Obligations.CyclesRunOnlyInRunning : Prop :=
  ∀ s : State, (s.run = .running → ∃ t, step s = .next t) ∧
    (s.run ≠ .running → ¬ ∃ t, step s = .next t)

/-- What a failure leaves behind (40_execution_cycle.md R124, derived there): after a decode failure the
state as it was; after a handler failure `ip` advanced and no register, memory word, stack entry or
queue entry written, nothing sent. -/
def Obligations.FailuresLeaveTheStateAlone : Prop :=
  (∀ (s : State) (k : FailureKind), s.run = .running → s.decodeNext = .error k →
    step s = .next (s.failed k)) ∧
  (∀ (i : Instr) (s t : State) (k : FailureKind), s.run = .running → exec i s = .next t →
    t.run = .halted (.failure k) →
    t.ip = s.ip + i.len ∧ t.regs = s.regs ∧ t.mem = s.mem ∧ t.memLen = s.memLen ∧
    t.stack = s.stack ∧ t.inQueue = s.inQueue ∧ t.outLog = s.outLog ∧ t.cfg = s.cfg)

/-- Which handler can fail with which kind, and when (60_exceptions.md R242, derived there). -/
def Obligations.HandlerFailuresByInstruction : Prop :=
  ∀ (i : Instr) (s t : State) (k : FailureKind), s.run = .running → exec i s = .next t →
    t.run = .halted (.failure k) →
    (k = .emptyStack ∧ s.stack = [] ∧ (i = .ret ∨ ∃ d, i = .pop d)) ∨
    (k = .stackOverflow ∧ (∃ n, s.cfg.stackDepth = some n ∧ n ≤ s.stack.length) ∧
      ∃ a, i = .push a ∨ i = .call a) ∨
    (k = .divisionByZero ∧ ∃ d a b, i = .mod d a b ∧ s.value b = 0) ∨
    (k = .outOfBounds ∧ ∃ a, s.memLen ≤ (s.value a).toNat ∧
      ((∃ d, i = .rmem d a) ∨ ∃ v, i = .wmem a v)) ∨
    (k = .inputUnavailable ∧ s.inQueue = [] ∧ ∃ d, i = .inp d)

/-- A run ends in Success by `halt` and by nothing else (40_execution_cycle.md R125). -/
def Obligations.HaltAloneEndsInSuccess : Prop :=
  ∀ s t : State, step s = .next t → (t.run = .halted .success ↔ s.decodeNext = .ok .halt)

/-! ### Who writes what -/

/-- No instruction writes a register other than its destination (10_state.md R24). -/
def Obligations.OnlyTheDestinationRegisterIsWritten : Prop :=
  ∀ (i : Instr) (s t : State) (r : Reg), exec i s = .next t → destination i ≠ some r →
    t.reg r = s.reg r

/-- Memory is written by `wmem` alone, one word of it; MEM_LEN and the parameters never change
(20_memory.md R50, R52, 10_state.md R37). -/
def Obligations.OnlyWmemWritesMemory : Prop :=
  ∀ s t : State, step s = .next t → t.memLen = s.memLen ∧ t.cfg = s.cfg ∧
    (t.mem = s.mem ∨ ∃ a v, s.decodeNext = .ok (.wmem a v) ∧ (s.value a).toNat < s.memLen ∧
      ∀ b, t.word b = if b = (s.value a).toNat then s.value v else s.word b)

/-- Only `push`, `call`, `pop` and `ret` touch the stack, the first two growing it by one word, the
others shrinking it by one (10_state.md R30). -/
def Obligations.OnlyFourInstructionsTouchTheStack : Prop :=
  ∀ (i : Instr) (s t : State), exec i s = .next t →
    t.stack = s.stack ∨
    (∃ a, i = .push a ∧ t.stack = s.value a :: s.stack) ∨
    (∃ a w, i = .call a ∧ t.stack = w :: s.stack) ∨
    (∃ w, (i = .ret ∨ ∃ d, i = .pop d) ∧ s.stack = w :: t.stack)

/-- `ip` ends a cycle at the next sequential instruction, but for `jmp`, `jt`, `jf`, `call` and `ret`
(10_state.md R27) and an `in` that waits for the host (the model's choice, log 5). -/
def Obligations.OnlyFlowInstructionsSetIp : Prop :=
  ∀ (i : Instr) (s t : State), exec i s = .next t →
    t.ip = s.ip + i.len ∨
    (∃ a, (i = .jmp a ∨ i = .call a ∨ (∃ c, i = .jt c a) ∨ ∃ c, i = .jf c a) ∧
      t.ip = (s.value a).toNat) ∨
    (∃ w, i = .ret ∧ s.stack = w :: t.stack ∧ t.ip = w.toNat) ∨
    (∃ d, i = .inp d ∧ s.inQueue = [] ∧ s.hostIn = [] ∧ t = s)

/-- Only `in` changes the input queue or makes an IN exchange, and it makes one only when the queue is
empty (10_state.md R34, 48_io.md R222, R223; the answers to come are the model's field, log 4). -/
def Obligations.InputIsReachedOnlyThroughIn : Prop :=
  ∀ (i : Instr) (s t : State), exec i s = .next t →
    (t.inQueue = s.inQueue ∧ t.hostIn = s.hostIn ∧ t.inLog = s.inLog) ∨
    (∃ d, i = .inp d ∧
      ((∃ b, s.inQueue = b :: t.inQueue ∧ t.hostIn = s.hostIn ∧ t.inLog = s.inLog) ∨
       (∃ r, s.inQueue = [] ∧ s.hostIn = r :: t.hostIn ∧ t.inLog = s.inLog ++ [r])))

/-- 48_io.md R221: the output log starts empty and only grows, one byte per `out`, in execution order;
a byte sent stays sent. -/
def Obligations.OutputLogOnlyGrows : Prop :=
  State.reset.outLog = [] ∧
  (∀ (cfg : Config) (image : List Byte) (s : State), State.load cfg image = some s → s.outLog = []) ∧
  ∀ s t : State, step s = .next t →
    (t.outLog = s.outLog ∧ ∀ c, s.decodeNext ≠ .ok (.out c)) ∨
    (∃ c b, s.decodeNext = .ok (.out c) ∧ b.toNat = (s.value c).toNat % 256 ∧
      t.outLog = s.outLog ++ [b])

/-- 10_state.md R31: with the default, unbounded STACK_DEPTH no instruction fails with StackOverflow;
with a finite one, `push` and `call` at that depth do, and no entry is dropped or overwritten. -/
def Obligations.StackOverflowOnlyAtAFiniteDepth : Prop :=
  (∀ (i : Instr) (s t : State), s.run = .running → s.cfg.stackDepth = none → exec i s = .next t →
    t.run ≠ .halted (.failure .stackOverflow)) ∧
  (∀ (a : Operand) (s : State) (n : Nat), s.cfg.stackDepth = some n → s.stack.length = n →
    exec (.push a) s = .next (s.failedAfter 2 .stackOverflow) ∧
    exec (.call a) s = .next (s.failedAfter 2 .stackOverflow))

/-- An instruction other than `in` neither reads nor changes the input side (10_state.md R34: "Only
`in` reads it or writes it"). -/
def Obligations.OtherInstructionsIgnoreTheInput : Prop :=
  ∀ (i : Instr) (s : State) (q : List Byte) (rs log : List InResponse), (∀ d, i ≠ .inp d) →
    ∃ t, exec i s = .next t ∧
      exec i { s with inQueue := q, hostIn := rs, inLog := log } =
        .next { t with inQueue := q, hostIn := rs, inLog := log }

/-- The 15-bit property (10_state.md R21, derived there): if every word a cycle reads is at most 32767,
and a `call`'s return address is, then so is every word it writes. -/
def Obligations.SmallWordsStaySmall : Prop :=
  ∀ (i : Instr) (s t : State), exec i s = .next t →
    (∀ o ∈ valueOperands i, (s.value o).toNat ≤ 32767) →
    (∀ d a, i = .rmem d a → (s.word (s.value a).toNat).toNat ≤ 32767) →
    (∀ d, i = .pop d → ∀ v ∈ s.stack.head?, v.toNat ≤ 32767) →
    (∀ a, i = .call a → s.ip + 2 ≤ 32767) →
    (∀ r, t.reg r ≠ s.reg r → (t.reg r).toNat ≤ 32767) ∧
    (∀ a, t.word a ≠ s.word a → (t.word a).toNat ≤ 32767) ∧
    (∀ w ∈ t.stack, w ∈ s.stack ∨ w.toNat ≤ 32767)

/-! ### Laws over sequences of instructions -/

/-- 20_memory.md R65: a word that `wmem` writes is what every later decode whose window covers it
fetches. -/
def Obligations.WrittenWordIsFetched : Prop :=
  ∀ (a v : Operand) (s : State), (s.value a).toNat < s.memLen →
    ∃ t, exec (.wmem a v) s = .next t ∧
      ∀ p, p ≤ (s.value a).toNat → (s.value a).toNat < p + 4 → p + 4 ≤ t.memLen →
        ∃ w : Window, State.fetch { t with ip := p } = .ok w ∧
          [w.w0, w.w1, w.w2, w.w3][(s.value a).toNat - p]? = some (s.value v)

/-- `call` at `X`, then, with the stack balanced, `ret`: `ip` is `X + 2` and the stack as before
(47_call_return.md R210's property). -/
def Obligations.ReturnComesBackAfterTheCall : Prop :=
  ∀ (a : Operand) (s u : State), s.ip + 4 ≤ s.memLen → s.memLen ≤ 65536 →
    (∀ n, s.cfg.stackDepth = some n → s.stack.length < n) →
    ∃ t, exec (.call a) s = .next t ∧ t.ip = (s.value a).toNat ∧
      (u.stack = t.stack → ∃ v, exec .ret u = .next v ∧ v.ip = s.ip + 2 ∧ v.stack = s.stack)

/-- Two pushes, then two pops, give the words back in reverse order; on an empty stack a third pop
fails with EmptyStack (42_register_stack.md R152's LIFO law). -/
def Obligations.LastPushedIsFirstPopped : Prop :=
  ∀ (a b : Operand) (d e f : Reg) (s : State), d ≠ e →
    (∀ n, s.cfg.stackDepth = some n → s.stack.length + 2 ≤ n) →
    ∃ t, execAll [.push a, .push b, .pop d, .pop e] s = .next t ∧ t.reg d = s.value b ∧
      t.reg e = s.value a ∧ t.stack = s.stack ∧
      (s.stack = [] → exec (.pop f) t = .next (t.failedAfter 2 .emptyStack))

/-- For any condition and target exactly one of `jt` and `jf` jumps (44_jumps.md R172's property). -/
def Obligations.ExactlyOneOfJtAndJfJumps : Prop :=
  ∀ (c t : Operand) (s : State), ∃ u v, exec (.jt c t) s = .next u ∧ exec (.jf c t) s = .next v ∧
    ((u = { s with ip := (s.value t).toNat } ∧ v = { s with ip := s.ip + 3 }) ∨
     (u = { s with ip := s.ip + 3 } ∧ v = { s with ip := (s.value t).toNat }))

/-- `not(not(v)) = v` for every `v` in 0..32767 (45_alu.md R185's property). -/
def Obligations.NotTwiceGivesTheValueBack : Prop :=
  ∀ (a : Operand) (d e : Reg) (s : State), (s.value a).toNat ≤ 32767 →
    ∃ t, execAll [.not d a, .not e (.reg d)] s = .next t ∧ t.reg e = s.value a

/-- A line is delivered whole, newline included, one byte per `in`, with one IN exchange
(48_io.md R223, R224; the answers to come are the model's field, log 4). -/
def Obligations.LineIsDeliveredByteByByte : Prop :=
  ∀ (d : Reg) (bs : List Byte) (more : List InResponse) (s : State) (n : Nat), s.inQueue = [] →
    s.hostIn = .line bs :: more → 1 ≤ n → n ≤ bs.length →
    ∃ t, execAll (List.replicate n (.inp d)) s = .next t ∧ t.inQueue = bs.drop n ∧
      (t.reg d).toNat = (bs.getD (n - 1) 0).toNat ∧ t.ip = s.ip + 2 * n ∧
      OnlyRegisterAndInput d s t ∧ t.hostIn = more ∧ t.inLog = s.inLog ++ [.line bs]

/-- While the host has not answered, nothing changes and no later cycle starts (48_io.md R222, U11; that
a step then answers the same state is the model's choice, log 5). -/
def Obligations.SilentHostKeepsTheMachineWaiting : Prop :=
  ∀ s : State, s.awaitingInput → ∀ n, core.run n s = .next s

/-! ### The rule of each instruction, from the words in memory -/

/-- 41_machine_control.md R140 and R141. -/
def Obligations.HaltAndNoopRules : Prop :=
  InstructionRule 0 [] (fun s => step s = .next { s with ip := s.ip + 1, run := .halted .success }) ∧
  InstructionRule 21 [] (fun s => step s = .next { s with ip := s.ip + 1 })

/-- 42_register_stack.md R150. -/
def Obligations.SetRule : Prop :=
  InstructionRule 1 [.dest, .value] fun s => ∃ t, step s = .next t ∧
    (t.reg (s.destAt 1)).toNat = s.valueAt 2 ∧ t.ip = s.ip + 3 ∧ OnlyRegister (s.destAt 1) s t

/-- 42_register_stack.md R151. -/
def Obligations.PushRule : Prop :=
  InstructionRule 2 [.value] fun s =>
    ((∃ n, s.cfg.stackDepth = some n ∧ n ≤ s.stack.length) →
      step s = .next (s.failedAfter 2 .stackOverflow)) ∧
    ((∀ n, s.cfg.stackDepth = some n → s.stack.length < n) → ∃ t v, step s = .next t ∧
      t.stack = v :: s.stack ∧ v.toNat = s.valueAt 1 ∧ t.ip = s.ip + 2 ∧ OnlyStack s t)

/-- 42_register_stack.md R152. -/
def Obligations.PopRule : Prop :=
  InstructionRule 3 [.dest] fun s =>
    (s.stack = [] → step s = .next (s.failedAfter 2 .emptyStack)) ∧
    (∀ v rest, s.stack = v :: rest → ∃ t, step s = .next t ∧ t.reg (s.destAt 1) = v ∧
      t.stack = rest ∧ t.ip = s.ip + 2 ∧ OnlyRegisterAndStack (s.destAt 1) s t)

/-- 43_compare.md R160 and R161. -/
def Obligations.EqAndGtRules : Prop :=
  (InstructionRule 4 [.dest, .value, .value] fun s => ∃ t, step s = .next t ∧
    (t.reg (s.destAt 1)).toNat = (if s.valueAt 2 = s.valueAt 3 then 1 else 0) ∧
    t.ip = s.ip + 4 ∧ OnlyRegister (s.destAt 1) s t) ∧
  (InstructionRule 5 [.dest, .value, .value] fun s => ∃ t, step s = .next t ∧
    (t.reg (s.destAt 1)).toNat = (if s.valueAt 2 > s.valueAt 3 then 1 else 0) ∧
    t.ip = s.ip + 4 ∧ OnlyRegister (s.destAt 1) s t)

/-- 44_jumps.md R170. -/
def Obligations.JmpRule : Prop :=
  InstructionRule 6 [.value] fun s => step s = .next { s with ip := s.valueAt 1 }

/-- 44_jumps.md R171 and R172. -/
def Obligations.JtAndJfRules : Prop :=
  (InstructionRule 7 [.value, .value] fun s =>
    step s = .next { s with ip := if s.valueAt 1 ≠ 0 then s.valueAt 2 else s.ip + 3 }) ∧
  (InstructionRule 8 [.value, .value] fun s =>
    step s = .next { s with ip := if s.valueAt 1 = 0 then s.valueAt 2 else s.ip + 3 })

/-- 45_alu.md R180 and R181. -/
def Obligations.AddAndMultRules : Prop :=
  (InstructionRule 9 [.dest, .value, .value] fun s => ∃ t, step s = .next t ∧
    (t.reg (s.destAt 1)).toNat = (s.valueAt 2 + s.valueAt 3) % 32768 ∧
    t.ip = s.ip + 4 ∧ OnlyRegister (s.destAt 1) s t) ∧
  (InstructionRule 10 [.dest, .value, .value] fun s => ∃ t, step s = .next t ∧
    (t.reg (s.destAt 1)).toNat = (s.valueAt 2 * s.valueAt 3) % 32768 ∧
    t.ip = s.ip + 4 ∧ OnlyRegister (s.destAt 1) s t)

/-- 45_alu.md R182 (a zero divisor fails with DivisionByZero by the spec's decision D5). -/
def Obligations.ModRule : Prop :=
  InstructionRule 11 [.dest, .value, .value] fun s =>
    (s.valueAt 3 = 0 → step s = .next (s.failedAfter 4 .divisionByZero)) ∧
    (s.valueAt 3 ≠ 0 → ∃ t, step s = .next t ∧
      (t.reg (s.destAt 1)).toNat = s.valueAt 2 % s.valueAt 3 ∧
      t.ip = s.ip + 4 ∧ OnlyRegister (s.destAt 1) s t)

/-- 45_alu.md R183 and R184. -/
def Obligations.AndAndOrRules : Prop :=
  (InstructionRule 12 [.dest, .value, .value] fun s => ∃ t, step s = .next t ∧
    (t.reg (s.destAt 1)).toNat = s.valueAt 2 &&& s.valueAt 3 ∧
    t.ip = s.ip + 4 ∧ OnlyRegister (s.destAt 1) s t) ∧
  (InstructionRule 13 [.dest, .value, .value] fun s => ∃ t, step s = .next t ∧
    (t.reg (s.destAt 1)).toNat = s.valueAt 2 ||| s.valueAt 3 ∧
    t.ip = s.ip + 4 ∧ OnlyRegister (s.destAt 1) s t)

/-- 45_alu.md R185, in its second form: `0x7FFF - (op1 & 0x7FFF)`. -/
def Obligations.NotRule : Prop :=
  InstructionRule 14 [.dest, .value] fun s => ∃ t, step s = .next t ∧
    (t.reg (s.destAt 1)).toNat = 0x7FFF - (s.valueAt 2 &&& 0x7FFF) ∧
    t.ip = s.ip + 3 ∧ OnlyRegister (s.destAt 1) s t

/-- 46_memory_access.md R200. -/
def Obligations.RmemRule : Prop :=
  InstructionRule 15 [.dest, .value] fun s =>
    (s.memLen ≤ s.valueAt 2 → step s = .next (s.failedAfter 3 .outOfBounds)) ∧
    (s.valueAt 2 < s.memLen → ∃ t, step s = .next t ∧
      t.reg (s.destAt 1) = s.word (s.valueAt 2) ∧ t.ip = s.ip + 3 ∧ OnlyRegister (s.destAt 1) s t)

/-- 46_memory_access.md R201. -/
def Obligations.WmemRule : Prop :=
  InstructionRule 16 [.value, .value] fun s =>
    (s.memLen ≤ s.valueAt 1 → step s = .next (s.failedAfter 3 .outOfBounds)) ∧
    (s.valueAt 1 < s.memLen → ∃ t, step s = .next t ∧
      (t.word (s.valueAt 1)).toNat = s.valueAt 2 ∧ t.ip = s.ip + 3 ∧
      OnlyMemoryWord (s.valueAt 1) s t)

/-- 47_call_return.md R210. The bound on MEM_LEN is the spec's (decision D7); with it the return address
fits in a word. -/
def Obligations.CallRule : Prop :=
  InstructionRule 17 [.value] fun s =>
    ((∃ n, s.cfg.stackDepth = some n ∧ n ≤ s.stack.length) →
      step s = .next (s.failedAfter 2 .stackOverflow)) ∧
    (s.memLen ≤ 65536 → (∀ n, s.cfg.stackDepth = some n → s.stack.length < n) →
      ∃ t v, step s = .next t ∧ t.stack = v :: s.stack ∧ v.toNat = s.ip + 2 ∧
        t.ip = s.valueAt 1 ∧ OnlyStack s t)

/-- 47_call_return.md R211. -/
def Obligations.RetRule : Prop :=
  InstructionRule 18 [] fun s =>
    (s.stack = [] → step s = .next (s.failedAfter 1 .emptyStack)) ∧
    (∀ v rest, s.stack = v :: rest →
      step s = .next { s with ip := v.toNat, stack := rest })

/-- 48_io.md R220. -/
def Obligations.OutRule : Prop :=
  InstructionRule 19 [.value] fun s => ∃ t b, step s = .next t ∧ t.outLog = s.outLog ++ [b] ∧
    b.toNat = s.valueAt 1 % 256 ∧ t.ip = s.ip + 2 ∧ OnlyOutput s t

/-- 48_io.md R223. How the host's answers are held is the model's choice (log 4), and so is the step that
waits (log 5). -/
def Obligations.InRule : Prop :=
  InstructionRule 20 [.dest] fun s =>
    (∀ b rest, s.inQueue = b :: rest → ∃ t, step s = .next t ∧
      (t.reg (s.destAt 1)).toNat = b.toNat ∧ t.inQueue = rest ∧ t.ip = s.ip + 2 ∧
      OnlyRegisterAndQueue (s.destAt 1) s t) ∧
    (∀ b rest more, s.inQueue = [] → s.hostIn = .line (b :: rest) :: more → ∃ t, step s = .next t ∧
      (t.reg (s.destAt 1)).toNat = b.toNat ∧ t.inQueue = rest ∧ t.hostIn = more ∧
      t.inLog = s.inLog ++ [.line (b :: rest)] ∧ t.ip = s.ip + 2 ∧
      OnlyRegisterAndInput (s.destAt 1) s t) ∧
    (∀ r more, s.inQueue = [] → s.hostIn = r :: more → (r = .unavailable ∨ r = .line []) →
      step s = .next
        { s.failedAfter 2 .inputUnavailable with hostIn := more, inLog := s.inLog ++ [r] }) ∧
    (s.inQueue = [] → s.hostIn = [] → step s = .next s)

/-! ### Where each instruction completes -/

/-- `halt`, `noop` and `out` complete in every state (R140, R141, R220). -/
def Obligations.HaltNoopAndOutComplete : Prop :=
  ∀ (c : Operand) (s : State),
    exec .halt s = .next { s with ip := s.ip + 1, run := .halted .success } ∧
    exec .noop s = .next { s with ip := s.ip + 1 } ∧
    ∃ t b, exec (.out c) s = .next t ∧ t.outLog = s.outLog ++ [b] ∧
      b.toNat = (s.value c).toNat % 256 ∧ t.ip = s.ip + 2 ∧ OnlyOutput s t

/-- `set`, `eq`, `gt`, `add`, `mult`, `and`, `or` and `not` complete in every state, for every
destination and every operand form, and `mod` for every divisor other than 0 (R150, R160, R161, R180
to R185). Only the destination and `ip` change. -/
def Obligations.RegisterInstructionsComplete : Prop :=
  ∀ (d : Reg) (a b : Operand) (s : State),
    (∃ t, exec (.set d a) s = .next t ∧ t.reg d = s.value a ∧ t.ip = s.ip + 3 ∧ OnlyRegister d s t) ∧
    (∃ t, exec (.eq d a b) s = .next t ∧
      (t.reg d).toNat = (if (s.value a).toNat = (s.value b).toNat then 1 else 0) ∧
      t.ip = s.ip + 4 ∧ OnlyRegister d s t) ∧
    (∃ t, exec (.gt d a b) s = .next t ∧
      (t.reg d).toNat = (if (s.value a).toNat > (s.value b).toNat then 1 else 0) ∧
      t.ip = s.ip + 4 ∧ OnlyRegister d s t) ∧
    (∃ t, exec (.add d a b) s = .next t ∧
      (t.reg d).toNat = ((s.value a).toNat + (s.value b).toNat) % 32768 ∧
      t.ip = s.ip + 4 ∧ OnlyRegister d s t) ∧
    (∃ t, exec (.mult d a b) s = .next t ∧
      (t.reg d).toNat = ((s.value a).toNat * (s.value b).toNat) % 32768 ∧
      t.ip = s.ip + 4 ∧ OnlyRegister d s t) ∧
    (s.value b ≠ 0 → ∃ t, exec (.mod d a b) s = .next t ∧
      (t.reg d).toNat = (s.value a).toNat % (s.value b).toNat ∧
      t.ip = s.ip + 4 ∧ OnlyRegister d s t) ∧
    (∃ t, exec (.and d a b) s = .next t ∧
      (t.reg d).toNat = (s.value a).toNat &&& (s.value b).toNat ∧
      t.ip = s.ip + 4 ∧ OnlyRegister d s t) ∧
    (∃ t, exec (.or d a b) s = .next t ∧
      (t.reg d).toNat = (s.value a).toNat ||| (s.value b).toNat ∧
      t.ip = s.ip + 4 ∧ OnlyRegister d s t) ∧
    (∃ t, exec (.not d a) s = .next t ∧
      (t.reg d).toNat = 0x7FFF - ((s.value a).toNat &&& 0x7FFF) ∧
      t.ip = s.ip + 3 ∧ OnlyRegister d s t)

/-- `jmp`, `jt` and `jf` complete in every state (R170, R171, R172). -/
def Obligations.JumpsComplete : Prop :=
  ∀ (c t : Operand) (s : State),
    exec (.jmp t) s = .next { s with ip := (s.value t).toNat } ∧
    exec (.jt c t) s = .next
      { s with ip := if (s.value c).toNat ≠ 0 then (s.value t).toNat else s.ip + 3 } ∧
    exec (.jf c t) s = .next
      { s with ip := if (s.value c).toNat = 0 then (s.value t).toNat else s.ip + 3 }

/-- `push` and `call` complete below STACK_DEPTH (`call` with a return address that fits in a word), and
`pop` and `ret` on a stack that is not empty (R151, R152, R210, R211). -/
def Obligations.StackInstructionsComplete : Prop :=
  ∀ (d : Reg) (a : Operand) (s : State),
    ((∀ n, s.cfg.stackDepth = some n → s.stack.length < n) →
      exec (.push a) s = .next { s with ip := s.ip + 2, stack := s.value a :: s.stack }) ∧
    (s.ip + 2 ≤ 65535 → (∀ n, s.cfg.stackDepth = some n → s.stack.length < n) →
      ∃ t v, exec (.call a) s = .next t ∧ t.stack = v :: s.stack ∧ v.toNat = s.ip + 2 ∧
        t.ip = (s.value a).toNat ∧ OnlyStack s t) ∧
    (∀ v rest, s.stack = v :: rest →
      (∃ t, exec (.pop d) s = .next t ∧ t.reg d = v ∧ t.stack = rest ∧ t.ip = s.ip + 2 ∧
        OnlyRegisterAndStack d s t) ∧
      exec .ret s = .next { s with ip := v.toNat, stack := rest })

/-- `rmem` and `wmem` complete for every address below MEM_LEN (R200, R201). -/
def Obligations.MemoryInstructionsComplete : Prop :=
  ∀ (d : Reg) (a v : Operand) (s : State), (s.value a).toNat < s.memLen →
    (∃ t, exec (.rmem d a) s = .next t ∧ t.reg d = s.word (s.value a).toNat ∧ t.ip = s.ip + 3 ∧
      OnlyRegister d s t) ∧
    (∃ t, exec (.wmem a v) s = .next t ∧ t.word (s.value a).toNat = s.value v ∧ t.ip = s.ip + 3 ∧
      OnlyMemoryWord (s.value a).toNat s t)

/-- `in` completes when the queue holds a byte, and when it is empty and the host has answered a line of
at least one byte (R223; log 4). -/
def Obligations.InputInstructionCompletes : Prop :=
  ∀ (d : Reg) (b : Byte) (rest : List Byte) (s : State),
    (s.inQueue = b :: rest → ∃ t, exec (.inp d) s = .next t ∧ (t.reg d).toNat = b.toNat ∧
      t.inQueue = rest ∧ t.ip = s.ip + 2 ∧ OnlyRegisterAndQueue d s t) ∧
    (∀ more, s.inQueue = [] → s.hostIn = .line (b :: rest) :: more →
      ∃ t, exec (.inp d) s = .next t ∧ (t.reg d).toNat = b.toNat ∧ t.inQueue = rest ∧
        t.hostIn = more ∧ t.inLog = s.inLog ++ [.line (b :: rest)] ∧ t.ip = s.ip + 2 ∧
        OnlyRegisterAndInput d s t)

/-- Where the handlers fail, and on what (60_exceptions.md R240, R242): only `ip` and the run state change
(40_execution_cycle.md R124), and `in` has made its one exchange (48_io.md R222, R223; a line of no
bytes counts as Unavailable, D9). How the answers to come and the exchange record are held is the
model's choice (logs 4 and 7). -/
def Obligations.HandlersFailWhereTheSpecSays : Prop :=
  ∀ (d : Reg) (a b : Operand) (s : State),
    ((∃ n, s.cfg.stackDepth = some n ∧ n ≤ s.stack.length) →
      exec (.push a) s = .next (s.failedAfter 2 .stackOverflow) ∧
      exec (.call a) s = .next (s.failedAfter 2 .stackOverflow)) ∧
    (s.stack = [] → exec (.pop d) s = .next (s.failedAfter 2 .emptyStack) ∧
      exec .ret s = .next (s.failedAfter 1 .emptyStack)) ∧
    (s.value b = 0 → exec (.mod d a b) s = .next (s.failedAfter 4 .divisionByZero)) ∧
    (s.memLen ≤ (s.value a).toNat →
      exec (.rmem d a) s = .next (s.failedAfter 3 .outOfBounds) ∧
      exec (.wmem a b) s = .next (s.failedAfter 3 .outOfBounds)) ∧
    (∀ r more, s.inQueue = [] → s.hostIn = r :: more → (r = .unavailable ∨ r = .line []) →
      exec (.inp d) s = .next
        { s.failedAfter 2 .inputUnavailable with hostIn := more, inLog := s.inLog ++ [r] })
end

