-- ==== Sys2Proof/Laws/Decode.lean ====
section
/-! SUPPORT. The decoder, shape by shape: what each operand word and each list of operands decodes to
(30_encoding.md R87, R88, R94), in the terms of Sys2Proof/Safety.lean; which row of the opcode map an
opcode word selects (R84, R85). -/

namespace Sys2Proof.Machine

/-- The operand an accepted V word stands for (30_encoding.md R86, R87). -/
def operandOf (n : Word) : Operand := if n.toNat ≤ 32767 then .lit n else .reg (registerIndex n)

theorem decodeValue_eq (n : Word) :
    decodeValue n = if roleAccepts .value n then .ok (operandOf n) else .error .invalidOperand := by
  simp only [decodeValue, operandOf, roleAccepts, decide_eq_true_eq]
  by_cases h : n.toNat ≤ 32767
  · have : n.toNat ≤ 32775 := by omega
    simp [h, this]
  · simp [h]

theorem decodeDest_eq (n : Word) :
    decodeDest n = if roleAccepts .dest n then .ok (registerIndex n) else .error .invalidOperand := by
  simp only [decodeDest, roleAccepts, decide_eq_true_eq]

theorem decodeD_eq (mk : Reg → Instr) (w : Window) :
    decodeD mk w =
      if roleAccepts .dest w.w1 then .ok (mk (registerIndex w.w1)) else .error .invalidOperand := by
  unfold decodeD
  rw [decodeDest_eq]
  cases roleAccepts .dest w.w1 <;> rfl

theorem decodeV_eq (mk : Operand → Instr) (w : Window) :
    decodeV mk w =
      if roleAccepts .value w.w1 then .ok (mk (operandOf w.w1)) else .error .invalidOperand := by
  unfold decodeV
  rw [decodeValue_eq]
  cases roleAccepts .value w.w1 <;> rfl

theorem decodeDV_eq (mk : Reg → Operand → Instr) (w : Window) :
    decodeDV mk w =
      if roleAccepts .dest w.w1 && roleAccepts .value w.w2
      then .ok (mk (registerIndex w.w1) (operandOf w.w2)) else .error .invalidOperand := by
  unfold decodeDV
  rw [decodeDest_eq, decodeValue_eq]
  cases roleAccepts .dest w.w1 <;> cases roleAccepts .value w.w2 <;> rfl

theorem decodeVV_eq (mk : Operand → Operand → Instr) (w : Window) :
    decodeVV mk w =
      if roleAccepts .value w.w1 && roleAccepts .value w.w2
      then .ok (mk (operandOf w.w1) (operandOf w.w2)) else .error .invalidOperand := by
  unfold decodeVV
  rw [decodeValue_eq, decodeValue_eq]
  cases roleAccepts .value w.w1 <;> cases roleAccepts .value w.w2 <;> rfl

theorem decodeDVV_eq (mk : Reg → Operand → Operand → Instr) (w : Window) :
    decodeDVV mk w =
      if roleAccepts .dest w.w1 && (roleAccepts .value w.w2 && roleAccepts .value w.w3)
      then .ok (mk (registerIndex w.w1) (operandOf w.w2) (operandOf w.w3))
      else .error .invalidOperand := by
  unfold decodeDVV
  rw [decodeDest_eq, decodeValue_eq, decodeValue_eq]
  cases roleAccepts .dest w.w1 <;> cases roleAccepts .value w.w2 <;>
    cases roleAccepts .value w.w3 <;> rfl

/-- The value of the operand in window word `k` is the one read straight from memory. -/
theorem State.value_operandOf (s : State) (k : Nat) :
    (s.value (operandOf (s.windowWord k))).toNat = s.valueAt k := by
  simp only [operandOf, State.valueAt, State.destAt, registerIndex]
  split <;> rfl

/-! ### The opcode map -/

theorem distinctWords_iff (ws : List Word) : distinctWords ws = true ↔ ws.Nodup := by
  induction ws with
  | nil => simp [distinctWords]
  | cons w ws ih => simp [distinctWords, ih]

/-- Where the numbers are different, each selects its own row. -/
theorem opcodeRow_of_wf {cfg : Config} (h : cfg.wf = true) (row : Fin 22) :
    opcodeRow cfg.opcodes cfg.opcodes[row] = row := by
  have h' := ((distinctWords_iff _).mp h).idxOf_getElem row.val (by simp)
  simpa [opcodeRow] using h'

/-- A row that is found has the word as its number. -/
theorem getElem_opcodeRow {m : OpcodeMap} {w : Word} (row : Fin 22) (h : opcodeRow m w = row) :
    m[row] = w := by
  have hlt : m.toList.idxOf w < m.toList.length := by
    rw [show m.toList.idxOf w = row from h]; simp
  have h' := List.getElem_idxOf hlt
  simp only [opcodeRow] at h
  simpa [h] using h'

/-- A row is found exactly for the words the map lists. -/
theorem opcodeRow_lt_iff {m : OpcodeMap} {w : Word} : opcodeRow m w < 22 ↔ w ∈ m.toList := by
  have := List.idxOf_lt_length_iff (a := w) (l := m.toList)
  simpa [opcodeRow] using this

/-- The default map lists the words 0..21 (30_encoding.md R84, D1). -/
theorem mem_defaultOpcodes {w : Word} : w ∈ defaultOpcodes.toList ↔ w.toNat < 22 := by
  constructor
  · intro h
    simp only [defaultOpcodes, Vector.toList_mk, List.mem_cons, List.not_mem_nil, or_false] at h
    rcases h with h | h | h | h | h | h | h | h | h | h | h | h | h | h | h | h | h | h | h | h | h | h <;>
      subst h <;> decide
  · intro h
    have h' : w = BitVec.ofNat 16 w.toNat := by simp
    have key : ∀ k : Fin 22, BitVec.ofNat 16 k ∈ defaultOpcodes.toList := by decide
    rw [h']
    exact key ⟨w.toNat, h⟩

end Sys2Proof.Machine
end

