-- ==== Sys2Proof/Laws/Memory.lean ====
section
/-! SUPPORT. Memory: every operation keeps the canonical form; a read after a write gives the value
written at its own address and what stood before at every other. -/

namespace Sys2Proof.Machine

/-! ### Bytes of a word -/

@[simp] theorem lowByte_wordOfBytes (lo hi : Byte) : lowByte (wordOfBytes lo hi) = lo := by
  simp only [lowByte, wordOfBytes]
  apply BitVec.eq_of_toNat_eq
  simp only [BitVec.extractLsb'_toNat, BitVec.toNat_append, Nat.shiftRight_zero]
  have h1 := lo.isLt
  rw [← Nat.shiftLeft_add_eq_or_of_lt h1, Nat.shiftLeft_eq]
  omega

@[simp] theorem highByte_wordOfBytes (lo hi : Byte) : highByte (wordOfBytes lo hi) = hi := by
  simp only [highByte, wordOfBytes]
  apply BitVec.eq_of_toNat_eq
  simp only [BitVec.extractLsb'_toNat, BitVec.toNat_append]
  have h1 := lo.isLt
  have h2 := hi.isLt
  rw [← Nat.shiftLeft_add_eq_or_of_lt h1, Nat.shiftLeft_eq, Nat.shiftRight_eq_div_pow]
  omega

theorem toNat_wordOfBytes (lo hi : Byte) :
    (wordOfBytes lo hi).toNat = lo.toNat + 256 * hi.toNat := by
  simp only [wordOfBytes, BitVec.toNat_append]
  rw [← Nat.shiftLeft_add_eq_or_of_lt lo.isLt, Nat.shiftLeft_eq]
  omega

theorem toNat_lowByte (w : Word) : (lowByte w).toNat = w.toNat % 256 := by
  simp [lowByte, BitVec.extractLsb'_toNat]

theorem toNat_highByte (w : Word) : (highByte w).toNat = w.toNat / 256 := by
  have h := w.isLt
  simp only [highByte, BitVec.extractLsb'_toNat, Nat.shiftRight_eq_div_pow]
  omega

@[simp] theorem wordOfBytes_low_high (w : Word) : wordOfBytes (lowByte w) (highByte w) = w := by
  apply BitVec.eq_of_toNat_eq
  rw [toNat_wordOfBytes, toNat_lowByte, toNat_highByte]
  omega

/-! ### Read after write, one byte -/

theorem readByte_eraseCell (m : Memory) (a b : Nat) :
    readByte (eraseCell a m) b = if b = a then 0 else readByte m b := by
  induction m with
  | nil => simp [eraseCell, readByte]
  | cons c rest ih =>
    obtain ⟨k, v⟩ := c
    simp only [eraseCell] at ih ⊢
    by_cases hk : k = a
    · subst hk
      simp only [List.filter_cons, ne_eq, not_true_eq_false, decide_false, Bool.false_eq_true,
        if_false, ih, readByte]
      split <;> simp_all [eq_comm]
    · simp only [List.filter_cons, ne_eq, hk, not_false_eq_true, decide_true, if_true, readByte, ih]
      split <;> simp_all

theorem readByte_insertCell (m : Memory) (a b : Nat) (v : Byte) (h : ∀ c ∈ m, c.1 ≠ a) :
    readByte (insertCell a v m) b = if b = a then v else readByte m b := by
  induction m with
  | nil => simp [insertCell, readByte, eq_comm]
  | cons c rest ih =>
    obtain ⟨k, w⟩ := c
    have hk : k ≠ a := h _ (List.mem_cons_self)
    have ih := ih fun c hc => h c (List.mem_cons_of_mem _ hc)
    simp only [insertCell]
    split
    · simp [readByte, eq_comm]
    · simp only [readByte, ih]
      split <;> simp_all

theorem ne_of_mem_eraseCell {a : Nat} {m : Memory} {c : Host.Cell} (h : c ∈ eraseCell a m) :
    c.1 ≠ a := by
  simpa using (List.mem_filter.mp h).2

theorem readByte_writeByte (m : Memory) (a b : Nat) (v : Byte) :
    readByte (writeByte m a v) b = if b = a then v else readByte m b := by
  simp only [writeByte]
  split
  · next hv => rw [readByte_eraseCell, hv]
  · rw [readByte_insertCell _ _ _ _ fun c hc => ne_of_mem_eraseCell hc, readByte_eraseCell]
    split <;> simp_all

/-! ### Read after write, one word -/

/-- A byte of memory after a word is written (20_memory.md R54). -/
theorem readByte_writeWord (m : Memory) (a b : Nat) (v : Word) :
    readByte (writeWord m a v) b =
      if b = 2 * a then lowByte v else if b = 2 * a + 1 then highByte v else readByte m b := by
  simp only [writeWord, readByte_writeByte]
  by_cases h1 : b = 2 * a + 1
  · subst h1; simp
  · simp [h1]

/-- A word of memory after a word is written (20_memory.md R54, R63). -/
theorem readWord_writeWord (m : Memory) (a b : Nat) (v : Word) :
    readWord (writeWord m a v) b = if b = a then v else readWord m b := by
  simp only [readWord, readByte_writeWord]
  by_cases h : b = a
  · subst h
    simp
  · have h1 : ¬ 2 * b = 2 * a := by omega
    have h2 : ¬ 2 * b = 2 * a + 1 := by omega
    have h3 : ¬ 2 * b + 1 = 2 * a := by omega
    simp [h, h1, h2, h3]

/-! ### The canonical form -/

theorem wfFrom_weaken {lo lo' : Nat} {m : Memory} (hl : lo' ≤ lo) (h : Memory.wfFrom lo m = true) :
    Memory.wfFrom lo' m = true := by
  cases m with
  | nil => rfl
  | cons c rest =>
    obtain ⟨k, v⟩ := c
    simp only [Memory.wfFrom, Bool.and_eq_true, decide_eq_true_eq] at h ⊢
    exact ⟨⟨by omega, h.1.2⟩, h.2⟩

theorem wfFrom_eraseCell (a : Nat) {lo : Nat} {m : Memory} (h : Memory.wfFrom lo m = true) :
    Memory.wfFrom lo (eraseCell a m) = true := by
  induction m generalizing lo with
  | nil => rfl
  | cons c rest ih =>
    obtain ⟨k, v⟩ := c
    simp only [Memory.wfFrom, Bool.and_eq_true, decide_eq_true_eq] at h
    have ih := ih h.2
    simp only [eraseCell, List.filter_cons] at ih ⊢
    split
    · simp only [Memory.wfFrom, Bool.and_eq_true, decide_eq_true_eq]
      exact ⟨h.1, ih⟩
    · exact wfFrom_weaken (by omega) ih

theorem wfFrom_insertCell {a lo : Nat} {v : Byte} {m : Memory} (hv : v ≠ 0) (hlo : lo ≤ a)
    (hne : ∀ c ∈ m, c.1 ≠ a) (h : Memory.wfFrom lo m = true) :
    Memory.wfFrom lo (insertCell a v m) = true := by
  induction m generalizing lo with
  | nil => simpa [insertCell, Memory.wfFrom, hlo] using hv
  | cons c rest ih =>
    obtain ⟨k, w⟩ := c
    have hk : k ≠ a := hne _ (List.mem_cons_self)
    simp only [Memory.wfFrom, Bool.and_eq_true, decide_eq_true_eq] at h
    simp only [insertCell]
    split
    · simp only [Memory.wfFrom, Bool.and_eq_true, decide_eq_true_eq]
      exact ⟨⟨hlo, hv⟩, ⟨by omega, h.1.2⟩, h.2⟩
    · simp only [Memory.wfFrom, Bool.and_eq_true, decide_eq_true_eq]
      exact ⟨h.1, ih (by omega) (fun c hc => hne c (List.mem_cons_of_mem _ hc)) h.2⟩

/-- Writing a byte keeps the canonical form. -/
theorem wf_writeByte {m : Memory} (a : Nat) (v : Byte) (h : Memory.wf m = true) :
    Memory.wf (writeByte m a v) = true := by
  simp only [writeByte]
  split
  · exact wfFrom_eraseCell a h
  · next hv =>
    exact wfFrom_insertCell hv (Nat.zero_le _) (fun c hc => ne_of_mem_eraseCell hc)
      (wfFrom_eraseCell a h)

/-- Writing a word keeps the canonical form. -/
theorem wf_writeWord {m : Memory} (a : Nat) (v : Word) (h : Memory.wf m = true) :
    Memory.wf (writeWord m a v) = true :=
  wf_writeByte _ _ (wf_writeByte _ _ h)

/-- Writing a sequence of words keeps the canonical form. -/
theorem wf_writeWords {m : Memory} (a : Nat) (vs : List Word) (h : Memory.wf m = true) :
    Memory.wf (writeWords m a vs) = true := by
  induction vs generalizing m a with
  | nil => exact h
  | cons v vs ih => exact ih _ (wf_writeWord _ _ h)

theorem wfFrom_cellsOf (a : Nat) (bs : List Byte) : Memory.wfFrom a (cellsOf a bs) = true := by
  induction bs generalizing a with
  | nil => rfl
  | cons b rest ih =>
    simp only [cellsOf]
    split
    · exact wfFrom_weaken (by omega) (ih (a + 1))
    · next hb => simpa [Memory.wfFrom, ih] using hb

/-- A loaded image is in canonical form. -/
theorem wf_cellsOf (bs : List Byte) : Memory.wf (cellsOf 0 bs) = true := wfFrom_cellsOf 0 bs

theorem wf_reset : Memory.wf State.reset.mem = true := rfl

/-! ### Where the cells of memory lie -/

theorem mem_insertCell {a : Nat} {v : Byte} {m : Memory} {c : Host.Cell}
    (h : c ∈ insertCell a v m) : c = (a, v) ∨ c ∈ m := by
  induction m with
  | nil => simpa [insertCell] using h
  | cons x rest ih =>
    obtain ⟨k, w⟩ := x
    simp only [insertCell] at h
    split at h
    · simpa using h
    · rcases List.mem_cons.mp h with rfl | h
      · simp
      · rcases ih h with rfl | h <;> simp [*]

/-- A cell of memory after a byte is written is the one written or one of before. -/
theorem mem_writeByte {m : Memory} {a : Nat} {v : Byte} {c : Host.Cell} (h : c ∈ writeByte m a v) :
    c.1 = a ∨ c ∈ m := by
  simp only [writeByte] at h
  split at h
  · exact .inr (List.mem_filter.mp h).1
  · rcases mem_insertCell h with rfl | h
    · exact .inl rfl
    · exact .inr (List.mem_filter.mp h).1

/-- A cell of memory after a word is written lies in that word or is one of before. -/
theorem mem_writeWord {m : Memory} {a : Nat} {v : Word} {c : Host.Cell} (h : c ∈ writeWord m a v) :
    c.1 = 2 * a ∨ c.1 = 2 * a + 1 ∨ c ∈ m := by
  rcases mem_writeByte h with h | h
  · exact .inr (.inl h)
  · rcases mem_writeByte h with h | h
    · exact .inl h
    · exact .inr (.inr h)

theorem mem_cellsOf {a : Nat} {bs : List Byte} {c : Host.Cell} (h : c ∈ cellsOf a bs) :
    a ≤ c.1 ∧ c.1 < a + bs.length := by
  induction bs generalizing a with
  | nil => simp [cellsOf] at h
  | cons b rest ih =>
    simp only [cellsOf] at h
    simp only [List.length_cons]
    split at h
    · have := ih h; omega
    · rcases List.mem_cons.mp h with rfl | h
      · simp
      · have := ih h; omega

/-- Byte `i` of a loaded image reads back at byte address `i` (20_memory.md R57). -/
theorem readByte_cellsOf (a : Nat) (bs : List Byte) (b : Nat) :
    readByte (cellsOf a bs) b = if a ≤ b then bs.getD (b - a) 0 else 0 := by
  induction bs generalizing a with
  | nil => simp [cellsOf, readByte]
  | cons x rest ih =>
    simp only [cellsOf]
    by_cases hab : a = b
    · subst hab
      have hlt : ¬ a + 1 ≤ a := by omega
      split
      · next hx => simp [ih, hlt, hx]
      · simp [readByte]
    · have key : readByte (cellsOf (a + 1) rest) b = if a ≤ b then (x :: rest).getD (b - a) 0 else 0 := by
        rw [ih]
        by_cases h : a ≤ b
        · have h' : a + 1 ≤ b := by omega
          have hs : b - a = (b - (a + 1)) + 1 := by omega
          simp [h, h', hs]
        · have h' : ¬ a + 1 ≤ b := by omega
          simp [h, h']
      split
      · exact key
      · simp only [readByte, hab, if_false]; exact key

end Sys2Proof.Machine
end

