-- ==== Sys2Proof/Laws/State.lean ====
section
/-! SUPPORT. One lemma per field per update of State, so that no proof unfolds a record update. -/

namespace Sys2Proof.Machine

section
variable (s : State)

/-! ### The register bank -/

theorem State.reg_setReg (d r : Reg) (v : Word) :
    (s.setReg d v).reg r = if d = r then v else s.reg r := by
  simp only [State.reg, State.setReg, Fin.getElem_fin, Vector.getElem_set, Fin.val_eq_val]

@[simp] theorem State.reg_setReg_same (d : Reg) (v : Word) : (s.setReg d v).reg d = v := by
  simp [State.reg_setReg]

theorem State.reg_setReg_other {d r : Reg} (h : r ≠ d) (v : Word) :
    (s.setReg d v).reg r = s.reg r := by
  simp [State.reg_setReg, Ne.symm h]

@[simp] theorem State.ip_setReg (d : Reg) (v : Word) : (s.setReg d v).ip = s.ip := rfl
@[simp] theorem State.memLen_setReg (d : Reg) (v : Word) : (s.setReg d v).memLen = s.memLen := rfl
@[simp] theorem State.mem_setReg (d : Reg) (v : Word) : (s.setReg d v).mem = s.mem := rfl
@[simp] theorem State.stack_setReg (d : Reg) (v : Word) : (s.setReg d v).stack = s.stack := rfl
@[simp] theorem State.run_setReg (d : Reg) (v : Word) : (s.setReg d v).run = s.run := rfl
@[simp] theorem State.inQueue_setReg (d : Reg) (v : Word) : (s.setReg d v).inQueue = s.inQueue := rfl
@[simp] theorem State.outLog_setReg (d : Reg) (v : Word) : (s.setReg d v).outLog = s.outLog := rfl
@[simp] theorem State.inLog_setReg (d : Reg) (v : Word) : (s.setReg d v).inLog = s.inLog := rfl
@[simp] theorem State.hostIn_setReg (d : Reg) (v : Word) : (s.setReg d v).hostIn = s.hostIn := rfl
@[simp] theorem State.cfg_setReg (d : Reg) (v : Word) : (s.setReg d v).cfg = s.cfg := rfl

/-! ### The instruction pointer -/

@[simp] theorem State.reg_advance (n : Nat) (r : Reg) : (s.advance n).reg r = s.reg r := rfl
@[simp] theorem State.regs_advance (n : Nat) : (s.advance n).regs = s.regs := rfl
@[simp] theorem State.ip_advance (n : Nat) : (s.advance n).ip = s.ip + n := rfl
@[simp] theorem State.memLen_advance (n : Nat) : (s.advance n).memLen = s.memLen := rfl
@[simp] theorem State.mem_advance (n : Nat) : (s.advance n).mem = s.mem := rfl
@[simp] theorem State.stack_advance (n : Nat) : (s.advance n).stack = s.stack := rfl
@[simp] theorem State.run_advance (n : Nat) : (s.advance n).run = s.run := rfl
@[simp] theorem State.inQueue_advance (n : Nat) : (s.advance n).inQueue = s.inQueue := rfl
@[simp] theorem State.outLog_advance (n : Nat) : (s.advance n).outLog = s.outLog := rfl
@[simp] theorem State.inLog_advance (n : Nat) : (s.advance n).inLog = s.inLog := rfl
@[simp] theorem State.hostIn_advance (n : Nat) : (s.advance n).hostIn = s.hostIn := rfl
@[simp] theorem State.cfg_advance (n : Nat) : (s.advance n).cfg = s.cfg := rfl

@[simp] theorem State.reg_jump (t : Word) (r : Reg) : (s.jump t).reg r = s.reg r := rfl
@[simp] theorem State.regs_jump (t : Word) : (s.jump t).regs = s.regs := rfl
@[simp] theorem State.ip_jump (t : Word) : (s.jump t).ip = t.toNat := rfl
@[simp] theorem State.memLen_jump (t : Word) : (s.jump t).memLen = s.memLen := rfl
@[simp] theorem State.mem_jump (t : Word) : (s.jump t).mem = s.mem := rfl
@[simp] theorem State.stack_jump (t : Word) : (s.jump t).stack = s.stack := rfl
@[simp] theorem State.run_jump (t : Word) : (s.jump t).run = s.run := rfl
@[simp] theorem State.inQueue_jump (t : Word) : (s.jump t).inQueue = s.inQueue := rfl
@[simp] theorem State.outLog_jump (t : Word) : (s.jump t).outLog = s.outLog := rfl
@[simp] theorem State.inLog_jump (t : Word) : (s.jump t).inLog = s.inLog := rfl
@[simp] theorem State.hostIn_jump (t : Word) : (s.jump t).hostIn = s.hostIn := rfl
@[simp] theorem State.cfg_jump (t : Word) : (s.jump t).cfg = s.cfg := rfl

/-! ### Failing -/

@[simp] theorem State.reg_fail (k : FailureKind) (r : Reg) : (s.fail k).reg r = s.reg r := rfl
@[simp] theorem State.regs_fail (k : FailureKind) : (s.fail k).regs = s.regs := rfl
@[simp] theorem State.ip_fail (k : FailureKind) : (s.fail k).ip = s.ip := rfl
@[simp] theorem State.memLen_fail (k : FailureKind) : (s.fail k).memLen = s.memLen := rfl
@[simp] theorem State.mem_fail (k : FailureKind) : (s.fail k).mem = s.mem := rfl
@[simp] theorem State.stack_fail (k : FailureKind) : (s.fail k).stack = s.stack := rfl
@[simp] theorem State.run_fail (k : FailureKind) : (s.fail k).run = .halted (.failure k) := rfl
@[simp] theorem State.inQueue_fail (k : FailureKind) : (s.fail k).inQueue = s.inQueue := rfl
@[simp] theorem State.outLog_fail (k : FailureKind) : (s.fail k).outLog = s.outLog := rfl
@[simp] theorem State.inLog_fail (k : FailureKind) : (s.fail k).inLog = s.inLog := rfl
@[simp] theorem State.hostIn_fail (k : FailureKind) : (s.fail k).hostIn = s.hostIn := rfl
@[simp] theorem State.cfg_fail (k : FailureKind) : (s.fail k).cfg = s.cfg := rfl

/-! ### The OUT port -/

@[simp] theorem State.reg_send (b : Byte) (r : Reg) : (s.send b).reg r = s.reg r := rfl
@[simp] theorem State.regs_send (b : Byte) : (s.send b).regs = s.regs := rfl
@[simp] theorem State.ip_send (b : Byte) : (s.send b).ip = s.ip := rfl
@[simp] theorem State.memLen_send (b : Byte) : (s.send b).memLen = s.memLen := rfl
@[simp] theorem State.mem_send (b : Byte) : (s.send b).mem = s.mem := rfl
@[simp] theorem State.stack_send (b : Byte) : (s.send b).stack = s.stack := rfl
@[simp] theorem State.run_send (b : Byte) : (s.send b).run = s.run := rfl
@[simp] theorem State.inQueue_send (b : Byte) : (s.send b).inQueue = s.inQueue := rfl
@[simp] theorem State.outLog_send (b : Byte) : (s.send b).outLog = s.outLog ++ [b] := rfl
@[simp] theorem State.inLog_send (b : Byte) : (s.send b).inLog = s.inLog := rfl
@[simp] theorem State.hostIn_send (b : Byte) : (s.send b).hostIn = s.hostIn := rfl
@[simp] theorem State.cfg_send (b : Byte) : (s.send b).cfg = s.cfg := rfl

/-! ### Operand values -/

@[simp] theorem State.value_lit (n : Word) : s.value (.lit n) = n := rfl
@[simp] theorem State.value_reg (r : Reg) : s.value (.reg r) = s.reg r := rfl
@[simp] theorem State.value_advance (n : Nat) (o : Operand) : (s.advance n).value o = s.value o := by
  cases o <;> rfl

@[simp] theorem State.word_advance (n a : Nat) : (s.advance n).word a = s.word a := rfl
@[simp] theorem State.word_setReg (d : Reg) (v : Word) (a : Nat) : (s.setReg d v).word a = s.word a := rfl

end

end Sys2Proof.Machine
end

