-- ==== Sys2Proof/Laws/Ops.lean ====
section
/-! SUPPORT. For each shared operation, what it can do, said once. -/

namespace Sys2Proof.Machine

/-! ### The DATA port -/

theorem State.memRead_ok {s : State} {a : Nat} {v : Word} :
    s.memRead a = .ok v ↔ a < s.memLen ∧ v = s.word a := by
  unfold State.memRead
  split <;> simp [*, eq_comm]

theorem State.memRead_error {s : State} {a : Nat} {k : FailureKind} :
    s.memRead a = .error k ↔ s.memLen ≤ a ∧ k = .outOfBounds := by
  unfold State.memRead
  split
  · have : ¬ s.memLen ≤ a := by omega
    simp [this]
  · have : s.memLen ≤ a := by omega
    simp [this, eq_comm]

theorem State.memWrite_ok {s t : State} {a : Nat} {v : Word} :
    s.memWrite a v = .ok t ↔ a < s.memLen ∧ t = { s with mem := writeWord s.mem a v } := by
  unfold State.memWrite
  split <;> simp [*, eq_comm]

theorem State.memWrite_error {s : State} {a : Nat} {v : Word} {k : FailureKind} :
    s.memWrite a v = .error k ↔ s.memLen ≤ a ∧ k = .outOfBounds := by
  unfold State.memWrite
  split
  · have : ¬ s.memLen ≤ a := by omega
    simp [this]
  · have : s.memLen ≤ a := by omega
    simp [this, eq_comm]

/-- A word of memory after a DATA write (20_memory.md R54, R63). -/
theorem State.word_of_memWrite {s t : State} {a : Nat} {v : Word} (h : s.memWrite a v = .ok t)
    (b : Nat) : t.word b = if b = a then v else s.word b := by
  obtain ⟨-, rfl⟩ := State.memWrite_ok.mp h
  exact readWord_writeWord s.mem a b v

/-! ### The stack -/

theorem State.stackFull_iff {s : State} :
    s.stackFull = true ↔ ∃ d, s.cfg.stackDepth = some d ∧ d ≤ s.stack.length := by
  unfold State.stackFull
  split <;> simp [*]

theorem State.push_ok {s t : State} {v : Word} :
    s.push v = .ok t ↔ s.stackFull = false ∧ t = { s with stack := v :: s.stack } := by
  unfold State.push
  split <;> simp [*, eq_comm]

theorem State.push_error {s : State} {v : Word} {k : FailureKind} :
    s.push v = .error k ↔ s.stackFull = true ∧ k = .stackOverflow := by
  unfold State.push
  split <;> simp [*, eq_comm]

theorem State.pop_ok {s t : State} {v : Word} :
    s.pop = .ok (v, t) ↔ s.stack = v :: t.stack ∧ t = { s with stack := t.stack } := by
  unfold State.pop
  cases h : s.stack with
  | nil => simp
  | cons w rest =>
    simp only [Except.ok.injEq, Prod.mk.injEq, List.cons.injEq]
    constructor
    · rintro ⟨rfl, rfl⟩; exact ⟨⟨rfl, rfl⟩, rfl⟩
    · rintro ⟨⟨rfl, h1⟩, h2⟩; exact ⟨rfl, by rw [h1]; exact h2.symm⟩

theorem State.pop_error {s : State} {k : FailureKind} :
    s.pop = .error k ↔ s.stack = [] ∧ k = .emptyStack := by
  unfold State.pop
  cases h : s.stack <;> simp [eq_comm]

/-! ### The IN port -/

/-- Everything asking for the next input byte can come to (48_io.md R223). -/
theorem State.nextByte_cases (s : State) :
    (∃ b rest, s.inQueue = b :: rest ∧ s.nextByte = .byte b { s with inQueue := rest }) ∨
    (s.inQueue = [] ∧ s.hostIn = [] ∧ s.nextByte = .waiting) ∨
    (∃ b rest more, s.inQueue = [] ∧ s.hostIn = .line (b :: rest) :: more ∧
      s.nextByte = .byte b
        { s with inQueue := rest, hostIn := more, inLog := s.inLog ++ [.line (b :: rest)] }) ∨
    (∃ r more, (r = .line [] ∨ r = .unavailable) ∧ s.inQueue = [] ∧ s.hostIn = r :: more ∧
      s.nextByte = .unavailable { s with hostIn := more, inLog := s.inLog ++ [r] }) := by
  unfold State.nextByte State.readLine
  cases hq : s.inQueue with
  | cons b rest => exact .inl ⟨b, rest, rfl, rfl⟩
  | nil =>
    cases hh : s.hostIn with
    | nil => exact .inr (.inl ⟨rfl, rfl, rfl⟩)
    | cons r more =>
      cases r with
      | unavailable => exact .inr (.inr (.inr ⟨_, more, .inr rfl, rfl, rfl, by simp⟩))
      | line bs =>
        cases bs with
        | nil => exact .inr (.inr (.inr ⟨_, more, .inl rfl, rfl, rfl, by simp⟩))
        | cons b rest => exact .inr (.inr (.inl ⟨b, rest, more, rfl, rfl, by simp⟩))

/-! ### The end of a cycle -/

@[simp] theorem handled_ok (s t : State) : handled s (.ok t) = .next t := rfl
@[simp] theorem handled_error (s : State) (k : FailureKind) : handled s (.error k) = .next (s.fail k) := rfl

/-- A handler's end is a next state: its own, or the failure it raised (40_execution_cycle.md R124). -/
theorem handled_next {s t : State} {r : Except FailureKind State} :
    handled s r = .next t ↔ r = .ok t ∨ ∃ k, r = .error k ∧ t = s.fail k := by
  cases r <;> simp [eq_comm]

/-! ### FETCH -/

theorem State.fetch_ok {s : State} {w : Window} :
    s.fetch = .ok w ↔ s.ip + 4 ≤ s.memLen ∧
      w = ⟨s.word s.ip, s.word (s.ip + 1), s.word (s.ip + 2), s.word (s.ip + 3)⟩ := by
  unfold State.fetch
  split <;> simp [*, eq_comm]

theorem State.fetch_error {s : State} {k : FailureKind} :
    s.fetch = .error k ↔ s.memLen < s.ip + 4 ∧ k = .outOfBounds := by
  unfold State.fetch
  split
  · have : ¬ s.memLen < s.ip + 4 := by omega
    simp [this]
  · have : s.memLen < s.ip + 4 := by omega
    simp [this, eq_comm]

/-- A decoded instruction came from a window that fits (30_encoding.md R90, R91). -/
theorem State.decodeNext_ok {s : State} {i : Instr} :
    s.decodeNext = .ok i ↔ s.ip + 4 ≤ s.memLen ∧ decodeWindow s.cfg
      ⟨s.word s.ip, s.word (s.ip + 1), s.word (s.ip + 2), s.word (s.ip + 3)⟩ = .ok i := by
  unfold State.decodeNext
  cases h : s.fetch with
  | error k =>
    obtain ⟨h, -⟩ := State.fetch_error.mp h
    have : ¬ s.ip + 4 ≤ s.memLen := by omega
    simp [this]
  | ok w =>
    obtain ⟨hfit, rfl⟩ := State.fetch_ok.mp h
    simp [hfit]

/-! ### One step -/

/-- Everything a step can do (40_execution_cycle.md R120, R121). -/
theorem step_cases (s : State) :
    (∃ st, s.run = .halted st ∧ step s = .fault .halted) ∨
    (∃ k, s.run = .running ∧ s.decodeNext = .error k ∧ step s = .next (s.fail k)) ∨
    (∃ i, s.run = .running ∧ s.decodeNext = .ok i ∧ step s = exec i s) := by
  unfold step
  cases hr : s.run with
  | halted st => exact .inl ⟨st, rfl, rfl⟩
  | running =>
    cases hd : s.decodeNext with
    | error k => exact .inr (.inl ⟨k, rfl, rfl, rfl⟩)
    | ok i => exact .inr (.inr ⟨i, rfl, rfl, rfl⟩)

end Sys2Proof.Machine
end

