-- ==== Sys2Proof/Laws/PerInstr.lean ====
section
/-! SUPPORT. What holds of every instruction as syntax, one lemma per constructor. -/

namespace Sys2Proof.Laws.Encoding

/-- Whatever the opcode map, the encoding is the opcode's number and as many words in all as the
decoder's length table says, 1 to 4; by default the number is the row in the opcode map
(30_encoding.md R80, R81, R84). -/
def Statement (i : Instr) : Prop :=
  (∀ m, (encode m i).length = i.len ∧ (encode m i).head? = some m[i.row]) ∧ 1 ≤ i.len ∧ i.len ≤ 4 ∧
    (i.opcode defaultOpcodes).toNat = i.row

theorem halt : Statement .halt :=
  ⟨fun _ => ⟨rfl, rfl⟩, Nat.le_of_ble_eq_true rfl, Nat.le_of_ble_eq_true rfl, rfl⟩
theorem set (d : Reg) (v : Operand) : Statement (.set d v) :=
  ⟨fun _ => ⟨rfl, rfl⟩, Nat.le_of_ble_eq_true rfl, Nat.le_of_ble_eq_true rfl, rfl⟩
theorem push (v : Operand) : Statement (.push v) :=
  ⟨fun _ => ⟨rfl, rfl⟩, Nat.le_of_ble_eq_true rfl, Nat.le_of_ble_eq_true rfl, rfl⟩
theorem pop (d : Reg) : Statement (.pop d) :=
  ⟨fun _ => ⟨rfl, rfl⟩, Nat.le_of_ble_eq_true rfl, Nat.le_of_ble_eq_true rfl, rfl⟩
theorem eq (d : Reg) (a b : Operand) : Statement (.eq d a b) :=
  ⟨fun _ => ⟨rfl, rfl⟩, Nat.le_of_ble_eq_true rfl, Nat.le_of_ble_eq_true rfl, rfl⟩
theorem gt (d : Reg) (a b : Operand) : Statement (.gt d a b) :=
  ⟨fun _ => ⟨rfl, rfl⟩, Nat.le_of_ble_eq_true rfl, Nat.le_of_ble_eq_true rfl, rfl⟩
theorem jmp (t : Operand) : Statement (.jmp t) :=
  ⟨fun _ => ⟨rfl, rfl⟩, Nat.le_of_ble_eq_true rfl, Nat.le_of_ble_eq_true rfl, rfl⟩
theorem jt (c t : Operand) : Statement (.jt c t) :=
  ⟨fun _ => ⟨rfl, rfl⟩, Nat.le_of_ble_eq_true rfl, Nat.le_of_ble_eq_true rfl, rfl⟩
theorem jf (c t : Operand) : Statement (.jf c t) :=
  ⟨fun _ => ⟨rfl, rfl⟩, Nat.le_of_ble_eq_true rfl, Nat.le_of_ble_eq_true rfl, rfl⟩
theorem add (d : Reg) (a b : Operand) : Statement (.add d a b) :=
  ⟨fun _ => ⟨rfl, rfl⟩, Nat.le_of_ble_eq_true rfl, Nat.le_of_ble_eq_true rfl, rfl⟩
theorem mult (d : Reg) (a b : Operand) : Statement (.mult d a b) :=
  ⟨fun _ => ⟨rfl, rfl⟩, Nat.le_of_ble_eq_true rfl, Nat.le_of_ble_eq_true rfl, rfl⟩
theorem mod (d : Reg) (a b : Operand) : Statement (.mod d a b) :=
  ⟨fun _ => ⟨rfl, rfl⟩, Nat.le_of_ble_eq_true rfl, Nat.le_of_ble_eq_true rfl, rfl⟩
theorem and (d : Reg) (a b : Operand) : Statement (.and d a b) :=
  ⟨fun _ => ⟨rfl, rfl⟩, Nat.le_of_ble_eq_true rfl, Nat.le_of_ble_eq_true rfl, rfl⟩
theorem or (d : Reg) (a b : Operand) : Statement (.or d a b) :=
  ⟨fun _ => ⟨rfl, rfl⟩, Nat.le_of_ble_eq_true rfl, Nat.le_of_ble_eq_true rfl, rfl⟩
theorem not (d : Reg) (a : Operand) : Statement (.not d a) :=
  ⟨fun _ => ⟨rfl, rfl⟩, Nat.le_of_ble_eq_true rfl, Nat.le_of_ble_eq_true rfl, rfl⟩
theorem rmem (d : Reg) (a : Operand) : Statement (.rmem d a) :=
  ⟨fun _ => ⟨rfl, rfl⟩, Nat.le_of_ble_eq_true rfl, Nat.le_of_ble_eq_true rfl, rfl⟩
theorem wmem (a v : Operand) : Statement (.wmem a v) :=
  ⟨fun _ => ⟨rfl, rfl⟩, Nat.le_of_ble_eq_true rfl, Nat.le_of_ble_eq_true rfl, rfl⟩
theorem call (a : Operand) : Statement (.call a) :=
  ⟨fun _ => ⟨rfl, rfl⟩, Nat.le_of_ble_eq_true rfl, Nat.le_of_ble_eq_true rfl, rfl⟩
theorem ret : Statement .ret :=
  ⟨fun _ => ⟨rfl, rfl⟩, Nat.le_of_ble_eq_true rfl, Nat.le_of_ble_eq_true rfl, rfl⟩
theorem out (c : Operand) : Statement (.out c) :=
  ⟨fun _ => ⟨rfl, rfl⟩, Nat.le_of_ble_eq_true rfl, Nat.le_of_ble_eq_true rfl, rfl⟩
theorem inp (d : Reg) : Statement (.inp d) :=
  ⟨fun _ => ⟨rfl, rfl⟩, Nat.le_of_ble_eq_true rfl, Nat.le_of_ble_eq_true rfl, rfl⟩
theorem noop : Statement .noop :=
  ⟨fun _ => ⟨rfl, rfl⟩, Nat.le_of_ble_eq_true rfl, Nat.le_of_ble_eq_true rfl, rfl⟩

end Sys2Proof.Laws.Encoding
end

