-- ==== Sys2Proof/Tests/Slice0.lean ====
section
/-! SUPPORT. The model's own tests: ill-formed terms are refused; words written out from
30_encoding.md R81, R84 and R86 decode to what they stand for; single steps give the results of
95_test_vectors.md (the vector's number stands in the name or comment); and a witness for the
hypotheses of every statement that has some, at the ends of its ranges. -/

namespace Sys2Proof.Tests

open Sys2Proof Sys2Proof.Machine

/-! ### Helpers -/

/-- A Running state with registers 0, everything empty, `ip` 0 and the memory `ws`. -/
def img (ws : List Word) : State :=
  { State.reset with memLen := ws.length, mem := writeWords [] 0 ws }

/-- `s` with `x[r] = v`. -/
def withReg (s : State) (r : Reg) (v : Word) : State := { s with regs := s.regs.set r v }

/-- The outcome is a next state that meets `p`. -/
def nextIs (o : Host.Outcome State Fault Refusal) (p : State → Bool) : Bool :=
  match o with
  | .next t => p t
  | _ => false

/-- `s` failed with kind `k` with `ip` at `ip`, registers, memory and stack as in `s0`. -/
def failedAs (s0 : State) (k : FailureKind) (ip : Nat) (s : State) : Bool :=
  decide (s.run = .halted (.failure k) ∧ s.ip = ip ∧ s.regs = s0.regs ∧ s.mem = s0.mem ∧ s.stack = s0.stack)

/-! ### Well-formedness refuses what no operand word can name (R86) -/

/-- The least word that is no literal. -/
def badOp : Operand := .lit 32768

theorem test_wf_literal_bound : (Operand.lit 32767).wf = true ∧ badOp.wf = false ∧ (Operand.reg 7).wf = true := by
  decide
/-- The opcode map of decision D1 but for `halt` and `noop`, whose numbers are exchanged. -/
def swapped : OpcodeMap := (defaultOpcodes.set 0 21).set 21 0

/-- The default parameters with the map `swapped`. -/
def swappedConfig : Config := { Config.default with opcodes := swapped }

theorem test_wf_opcode_map :
    Config.default.wf = true ∧ swappedConfig.wf = true ∧
    ({ Config.default with opcodes := defaultOpcodes.set 20 21 } : Config).wf = false := by decide
theorem test_wf_refuses_one_operand :
    (Instr.set 0 badOp).wf = false ∧ (Instr.not 0 badOp).wf = false ∧ (Instr.rmem 0 badOp).wf = false ∧
    (Instr.push badOp).wf = false ∧ (Instr.jmp badOp).wf = false ∧ (Instr.call badOp).wf = false ∧
    (Instr.out badOp).wf = false := by decide
theorem test_wf_refuses_first_operand :
    (Instr.jt badOp (.lit 0)).wf = false ∧ (Instr.jf badOp (.lit 0)).wf = false ∧
    (Instr.wmem badOp (.lit 0)).wf = false ∧ (Instr.eq 0 badOp (.lit 0)).wf = false ∧
    (Instr.gt 0 badOp (.lit 0)).wf = false ∧ (Instr.add 0 badOp (.lit 0)).wf = false ∧
    (Instr.mult 0 badOp (.lit 0)).wf = false ∧ (Instr.mod 0 badOp (.lit 0)).wf = false ∧
    (Instr.and 0 badOp (.lit 0)).wf = false ∧ (Instr.or 0 badOp (.lit 0)).wf = false := by decide
theorem test_wf_refuses_second_operand :
    (Instr.jt (.lit 0) badOp).wf = false ∧ (Instr.jf (.lit 0) badOp).wf = false ∧
    (Instr.wmem (.lit 0) badOp).wf = false ∧ (Instr.eq 0 (.lit 0) badOp).wf = false ∧
    (Instr.gt 0 (.lit 0) badOp).wf = false ∧ (Instr.add 0 (.lit 0) badOp).wf = false ∧
    (Instr.mult 0 (.lit 0) badOp).wf = false ∧ (Instr.mod 0 (.lit 0) badOp).wf = false ∧
    (Instr.and 0 (.lit 0) badOp).wf = false ∧ (Instr.or 0 (.lit 0) badOp).wf = false := by decide

/-! ### Every constructor's decoding, from words in hexadecimal, the first word lowest (R81, R84) -/

theorem test_decode_halt : decodeTableWord 16 0x0000 = some .halt := by decide
theorem test_decode_set : decodeTableWord 48 0x0005_8000_0001 = some (.set 0 (.lit 5)) := by decide
theorem test_decode_push : decodeTableWord 32 0x8003_0002 = some (.push (.reg 3)) := by decide
theorem test_decode_pop : decodeTableWord 32 0x8001_0003 = some (.pop 1) := by decide
theorem test_decode_eq :
    decodeTableWord 64 0x000a_8000_8001_0004 = some (.eq 1 (.reg 0) (.lit 10)) := by decide
theorem test_decode_gt :
    decodeTableWord 64 0x0003_7fff_8007_0005 = some (.gt 7 (.lit 32767) (.lit 3)) := by decide
theorem test_decode_jmp : decodeTableWord 32 0x000a_0006 = some (.jmp (.lit 10)) := by decide
theorem test_decode_jt : decodeTableWord 48 0x0064_8002_0007 = some (.jt (.reg 2) (.lit 100)) := by decide
theorem test_decode_jf : decodeTableWord 48 0x8004_0000_0008 = some (.jf (.lit 0) (.reg 4)) := by decide
theorem test_decode_add :
    decodeTableWord 64 0x7fff_8001_8001_0009 = some (.add 1 (.reg 1) (.lit 32767)) := by decide
theorem test_decode_mult :
    decodeTableWord 64 0x00c8_012c_8000_000a = some (.mult 0 (.lit 300) (.lit 200)) := by decide
theorem test_decode_mod :
    decodeTableWord 64 0x0003_000a_8003_000b = some (.mod 3 (.lit 10) (.lit 3)) := by decide
theorem test_decode_and :
    decodeTableWord 64 0x7fff_8000_8000_000c = some (.and 0 (.reg 0) (.lit 32767)) := by decide
theorem test_decode_or :
    decodeTableWord 64 0x8006_8005_8002_000d = some (.or 2 (.reg 5) (.reg 6)) := by decide
theorem test_decode_not : decodeTableWord 48 0x0000_8001_000e = some (.not 1 (.lit 0)) := by decide
theorem test_decode_rmem : decodeTableWord 48 0x0014_8002_000f = some (.rmem 2 (.lit 20)) := by decide
theorem test_decode_wmem : decodeTableWord 48 0x8001_0005_0010 = some (.wmem (.lit 5) (.reg 1)) := by decide
theorem test_decode_call : decodeTableWord 32 0x000a_0011 = some (.call (.lit 10)) := by decide
theorem test_decode_ret : decodeTableWord 16 0x0012 = some .ret := by decide
theorem test_decode_out : decodeTableWord 32 0x0041_0013 = some (.out (.lit 65)) := by decide
theorem test_decode_in : decodeTableWord 32 0x8000_0014 = some (.inp 0) := by decide
theorem test_decode_noop : decodeTableWord 16 0x0015 = some .noop := by decide

/-- U4: under another opcode map another number selects the opcode, and words the map does not list are
unknown. -/
theorem test_decode_under_another_opcode_map :
    (decodeWords swappedConfig [21, 0, 0, 0]).toOption = some .halt ∧
    (decodeWords swappedConfig [0, 0, 0, 0]).toOption = some .noop ∧
    (decodeWords swappedConfig [19, 7, 0, 0]).toOption = some (.out (.lit 7)) ∧
    (decodeWords { Config.default with opcodes := defaultOpcodes.set 18 40000 } [18, 0, 0, 0]).toOption = none ∧
    (decodeWords { Config.default with opcodes := defaultOpcodes.set 18 40000 } [40000, 0, 0, 0]).toOption =
      some .ret := by decide
/-- R88: operand words of zeros are no destination, so these rows' opcode words alone are no
instruction (log 25). -/
theorem test_decode_zero_operands_refused :
    (decodeTableWord 16 1, decodeTableWord 16 3, decodeTableWord 16 9, decodeTableWord 16 20) =
      (none, none, none, none) := by decide
/-- The first word's low byte comes first in memory (20_memory.md R57). -/
theorem test_byte_order : wordsOfBytes [0x34, 0x12, 0x00, 0x80] = [0x1234, 0x8000] := by decide
theorem test_fetch_word_runs_next :
    nextIs (step (State.reset.withFetchWord 64 0x7fff_8001_8001_0009))
      (fun t => decide (t.reg 1 = 32767 ∧ t.ip = 4 ∧ t.run = .running)) = true := by decide

/-! ### Decode failures and their order (vectors D-4, D-6, D-8, D-9, D-16, D-17, J-7) -/

theorem test_D4_empty_image : nextIs (step (img [])) (failedAs (img []) .outOfBounds 0) = true := by decide
theorem test_D6_opcode_not_resolved :
    nextIs (step (img [32768, 0, 0, 0])) (failedAs (img [32768, 0, 0, 0]) .unknownOpcode 0) = true := by decide
theorem test_D8_window_before_opcode :
    nextIs (step (img [22, 0])) (failedAs (img [22, 0]) .outOfBounds 0) = true := by decide
theorem test_D9_opcode_before_operands :
    nextIs (step (img [22, 40000, 0, 0])) (failedAs (img [22, 40000, 0, 0]) .unknownOpcode 0) = true := by decide
theorem test_D16_unused_words_ignored :
    nextIs (step (img [0, 40000, 40000, 40000])) (fun t => decide (t.run = .halted .success ∧ t.ip = 1)) = true := by
  decide
theorem test_D17_unused_words_checked :
    nextIs (step { img [0, 40000, 40000, 40000] with cfg := { Config.default with checkUnused := true } })
      (failedAs (img [0, 40000, 40000, 40000]) .invalidOperand 0) = true := by decide

/-! ### One step each -/

theorem test_MC1_halt :
    nextIs (step (img [0, 0, 0, 0])) (fun t => decide (t.run = .halted .success ∧ t.ip = 1)) = true := by decide
theorem test_MC2_noop :
    nextIs (step (img [21, 0, 0, 0, 0])) (fun t => decide (t = { img [21, 0, 0, 0, 0] with ip := 1 })) = true := by
  decide
theorem test_D12_set_last_register :
    nextIs (step (img [1, 32775, 7, 0])) (fun t => decide (t.reg 7 = 7 ∧ t.ip = 3)) = true := by decide
theorem test_D15_set_no_second_resolution :
    nextIs (step (withReg (img [1, 32769, 32768, 0]) 0 32768)) (fun t => decide (t.reg 1 = 32768)) = true := by
  decide
theorem test_RS4_push_wide_word :
    nextIs (step (withReg (img [2, 32771, 0, 0]) 3 40000)) (fun t => decide (t.stack = [40000])) = true := by decide
theorem test_RS8_push_full :
    nextIs (step { img [2, 1, 0, 0] with stack := [6, 5], cfg := { Config.default with stackDepth := some 2 } })
      (failedAs { img [2, 1, 0, 0] with stack := [6, 5] } .stackOverflow 2) = true := by decide
theorem test_RS5_pop :
    nextIs (step { img [3, 32769, 0, 0] with stack := [9, 7] })
      (fun t => decide (t.reg 1 = 9 ∧ t.stack = [7] ∧ t.ip = 2)) = true := by decide
theorem test_RS6_pop_empty :
    nextIs (step (img [3, 32769, 0, 0])) (failedAs (img [3, 32769, 0, 0]) .emptyStack 2) = true := by decide
theorem test_C8_eq_full_words :
    nextIs (step (withReg (img [4, 32768, 32769, 0]) 1 32768)) (fun t => decide (t.reg 0 = 0 ∧ t.ip = 4)) = true := by
  decide
theorem test_C9_eq_source_is_destination :
    nextIs (step (withReg (img [4, 32768, 32768, 32768]) 0 7)) (fun t => decide (t.reg 0 = 1)) = true := by decide
theorem test_C7_gt_unsigned :
    nextIs (step (withReg (img [5, 32768, 32769, 5]) 1 40000)) (fun t => decide (t.reg 0 = 1)) = true := by decide
theorem test_C1_gt_equal :
    nextIs (step (withReg (img [5, 32768, 5, 5]) 0 9)) (fun t => decide (t.reg 0 = 0)) = true := by decide
theorem test_J10_jmp_register :
    nextIs (step (withReg (img [6, 32768, 0, 0]) 0 2)) (fun t => decide (t.ip = 2)) = true := by decide
theorem test_J6_jt_wide_condition :
    nextIs (step (withReg (img [7, 32768, 9, 0]) 0 40000)) (fun t => decide (t.ip = 9)) = true := by decide
theorem test_J7_jt_target_resolved_first :
    nextIs (step (img [7, 0, 40000, 0])) (failedAs (img [7, 0, 40000, 0]) .invalidOperand 0) = true := by decide
theorem test_J4_jf_zero : nextIs (step (img [8, 0, 9, 0])) (fun t => decide (t.ip = 9)) = true := by decide
theorem test_J5_jf_not_zero : nextIs (step (img [8, 1, 9, 0])) (fun t => decide (t.ip = 3)) = true := by decide
theorem test_A6_add_wraps :
    nextIs (step (withReg (withReg (img [9, 32768, 32769, 32770]) 1 65535) 2 65535))
      (fun t => decide (t.reg 0 = 32766)) = true := by decide
theorem test_D20_add_reads_old_value :
    nextIs (step (withReg (img [9, 32768, 32768, 32768]) 0 3)) (fun t => decide (t.reg 0 = 6 ∧ t.ip = 4)) = true := by
  decide
theorem test_A9_mult : nextIs (step (img [10, 32768, 300, 200])) (fun t => decide (t.reg 0 = 27232)) = true := by
  decide
theorem test_A13_mult_wide :
    nextIs (step (withReg (img [10, 32768, 32769, 2]) 1 65535)) (fun t => decide (t.reg 0 = 32766)) = true := by
  decide
theorem test_A19_mod_not_reduced :
    nextIs (step (withReg (withReg (img [11, 32768, 32769, 32770]) 1 40000) 2 50000))
      (fun t => decide (t.reg 0 = 40000)) = true := by decide
theorem test_A21_mod_by_zero :
    nextIs (step (img [11, 32768, 5, 0])) (failedAs (img [11, 32768, 5, 0]) .divisionByZero 4) = true := by decide
theorem test_A25_and_keeps_bit_15 :
    nextIs (step (withReg (withReg (img [12, 32768, 32769, 32770]) 1 32768) 2 32768))
      (fun t => decide (t.reg 0 = 32768)) = true := by decide
theorem test_A28_or_keeps_bit_15 :
    nextIs (step (withReg (img [13, 32768, 32769, 1]) 1 32768)) (fun t => decide (t.reg 0 = 32769)) = true := by decide
theorem test_A32_not : nextIs (step (img [14, 32768, 21845, 0])) (fun t => decide (t.reg 0 = 10922 ∧ t.ip = 3)) = true := by
  decide
theorem test_A33_not_ignores_bit_15 :
    nextIs (step (withReg (img [14, 32768, 32769, 0]) 1 32768)) (fun t => decide (t.reg 0 = 32767)) = true := by decide
theorem test_M3_rmem_raw :
    nextIs (step (img [15, 32768, 3, 32768])) (fun t => decide (t.reg 0 = 32768 ∧ t.ip = 3)) = true := by decide
theorem test_M2_rmem_out_of_bounds :
    nextIs (step (img [15, 32768, 4, 0])) (failedAs (img [15, 32768, 4, 0]) .outOfBounds 3) = true := by decide
theorem test_M7_wmem_own_window :
    nextIs (step (img [16, 1, 500, 0])) (fun t => decide (t.word 1 = 500 ∧ t.word 0 = 16 ∧ t.ip = 3)) = true := by
  decide
theorem test_M8_wmem_address_from_register :
    nextIs (step (withReg (img [16, 32768, 7, 0, 0, 0]) 0 5)) (fun t => decide (t.word 5 = 7)) = true := by decide
theorem test_CR1_call :
    nextIs (step { img [21, 21, 17, 10, 0, 0] with ip := 2 }) (fun t => decide (t.stack = [4] ∧ t.ip = 10)) = true := by
  decide
theorem test_CR3_ret :
    nextIs (step { img [18, 0, 0, 0] with stack := [2, 7] }) (fun t => decide (t.ip = 2 ∧ t.stack = [7])) = true := by
  decide
theorem test_CR2_ret_empty :
    nextIs (step (img [18, 0, 0, 0])) (failedAs (img [18, 0, 0, 0]) .emptyStack 1) = true := by decide
theorem test_IO2_out_low_byte :
    nextIs (step (img [19, 321, 0, 0])) (fun t => decide (t.outLog = [65] ∧ t.ip = 2)) = true := by decide
theorem test_IO6_in_reads_line :
    nextIs (step { img [20, 32768, 0, 0] with hostIn := [.line [65, 66, 10]] })
      (fun t => decide (t.reg 0 = 65 ∧ t.inQueue = [66, 10] ∧ t.hostIn = [] ∧
        t.inLog = [.line [65, 66, 10]] ∧ t.ip = 2)) = true := by decide
theorem test_IO9_in_unavailable :
    nextIs (step { img [20, 32768, 0, 0] with hostIn := [.unavailable] })
      (failedAs (img [20, 32768, 0, 0]) .inputUnavailable 2) = true := by decide

/-- R240: the status codes of D11. -/
theorem test_status_codes :
    [FailureKind.outOfBounds, .invalidOperand, .unknownOpcode, .emptyStack, .inputUnavailable,
      .divisionByZero, .stackOverflow].map failureCode = [1, 2, 3, 4, 5, 6, 7] ∧
    State.statusCode State.reset = none ∧
    State.statusCode { State.reset with run := .halted .success } = some 0 := by decide
/-- 48_io.md R222: what a line is. -/
theorem test_legal_answers :
    legalAnswers [.line [65, 10], .line [10], .line [66], .unavailable] = true ∧
    legalAnswers [.line [65, 10, 66]] = false ∧ legalAnswers [.line []] = false ∧
    legalAnswers [.line [66], .line [10]] = false := by decide

/-! ### Witnesses: the hypotheses of each statement are met -/

theorem witness_LoadGivesTheImageWords :
    ([1, 2, 3] : List Byte).length % 2 = 1 ∧ 65536 < (List.replicate 131074 (0 : Byte)).length / 2 ∧
    ((List.replicate 131072 (0 : Byte)).length % 2 = 0 ∧ (List.replicate 131072 (0 : Byte)).length / 2 ≤ 65536) ∧
    (State.load { Config.default with stackDepth := some 3, checkUnused := true } [0x34, 0x12, 0, 0x80]).map (fun s => [s.word 0, s.word 1]) = some [0x1234, 0x8000] := by
  simp only [List.length_replicate]
  decide

theorem witness_LoadedStateMeetsInvariant :
    ({ Config.default with stackDepth := some 0, checkUnused := true } : Config).wf = true ∧
    (State.load { Config.default with stackDepth := some 0, checkUnused := true } [21, 0, 0, 0, 0, 0, 0, 0]).isSome = true := by
  decide

/-- The state of `witness_StepKeepsInvariant`: a full stack, a queue with its newline, an answer to come. -/
def invState : State :=
  { img [21, 0, 0, 0] with
    stack := [1, 2], inQueue := [65, 10], hostIn := [.line [66], .unavailable], cfg := { Config.default with stackDepth := some 2 } }

theorem witness_StepKeepsInvariant : invState.Inv ∧ nextIs (step invState) (fun _ => true) = true := by
  refine ⟨⟨by decide, by decide, by decide, by decide, ?_, by decide, by decide, by decide⟩, by decide⟩
  intro d h
  cases h
  decide

theorem witness_ReachableStatesMeetInvariant : Reachable (img []) :=
  .load Config.default [] _ (by decide) rfl

theorem witness_DecodeOfEncodeIsIdentity :
    swappedConfig.wf = true ∧ ((Instr.add 7 (.reg 7) (.lit 32767)).wf = true ∧
      4 ≤ (encode swapped (.add 7 (.reg 7) (.lit 32767)) ++ []).length ∧
      valueWords (([] : List Word).take (4 - (Instr.add 7 (.reg 7) (.lit 32767)).len)) = true) ∧
    (Instr.halt.wf = true ∧ 4 ≤ (encode swapped .halt ++ [0, 32775, 1, 65535]).length ∧
      valueWords (([0, 32775, 1, 65535] : List Word).take (4 - Instr.halt.len)) = true) := by decide

theorem witness_DecodedWindowIsAnEncoding :
    (decodeWindow { swappedConfig with checkUnused := true } ⟨1, 32775, 32767, 32775⟩).toOption = some (.set 7 (.lit 32767)) ∧
    (decodeWindow Config.default ⟨0, 65535, 32776, 40000⟩).toOption = some .halt := by decide

/-- A state whose window is the last of memory, with unused words checked. -/
def lastWindow : State := { img [0, 3, 32775, 32775, 0] with ip := 1, cfg := { Config.default with checkUnused := true } }

theorem witness_StepRunsTheDecodedInstruction :
    lastWindow.run = .running ∧ lastWindow.cfg.wf = true ∧ (Instr.pop 7).wf = true ∧ lastWindow.ip + 4 ≤ lastWindow.memLen ∧
    (∀ k, k < (Instr.pop 7).len → lastWindow.windowWord k = (encode lastWindow.cfg.opcodes (.pop 7)).getD k 0) ∧
    lastWindow.unusedRight (Instr.pop 7).len = true := by decide

theorem witness_PlacedInstructionIsNextToRun :
    lastWindow.cfg.wf = true ∧ (Instr.ret).wf = true ∧ (encode lastWindow.cfg.opcodes .ret ++ [32775, 0, 0]).length = 4 ∧
    valueWords [32775, 0, 0] = true ∧ lastWindow.cfg.checkUnused = true := by decide

theorem witness_WindowIsCheckedThenRead :
    ((img [0, 0, 0]).run = .running ∧ (img [0, 0, 0]).memLen < (img [0, 0, 0]).ip + 4) ∧
    ((img [0, 0, 0, 0]).run = .running ∧ (img [0, 0, 0, 0]).ip + 4 ≤ (img [0, 0, 0, 0]).memLen) := by decide

theorem witness_OpcodeWordsAboveTwentyOneFail :
    ((img [22, 0, 0, 0]).ip + 4 ≤ (img [22, 0, 0, 0]).memLen ∧ ((img [22, 0, 0, 0]).windowWord 0).toNat = 22) ∧
    ((img [65535, 0, 0, 0]).windowWord 0).toNat = 65535 ∧ (img [22, 0, 0, 0]).cfg.opcodes = defaultOpcodes ∧
    ((img [21, 0, 0, 0]).ip + 4 ≤ (img [21, 0, 0, 0]).memLen ∧ ((img [21, 0, 0, 0]).windowWord 0).toNat = 21) := by
  decide

theorem witness_OperandWordsResolveByClass :
    (32767#16).toNat ≤ 32767 ∧ (32768#16).toNat = 32768 + (0 : Reg).val ∧
    (32775#16).toNat = 32768 + (7 : Reg).val ∧ 32776 ≤ (32776#16).toNat ∧ (32767#16).toNat < 32768 := by decide

theorem witness_UnusedWordsMatterOnlyWhenChecked :
    (decodeWindow { swappedConfig with checkUnused := false } ⟨2, 7, 32776, 0⟩).toOption = some (.push (.lit 7)) ∧
    (decodeWindow { swappedConfig with checkUnused := true } ⟨2, 7, 32775, 0⟩).toOption = some (.push (.lit 7)) ∧
    ([2, 7, 5, 6] : List Word).take (Instr.push (.lit 7)).len = [2, 7, 32776, 0].take (Instr.push (.lit 7)).len := by
  decide

theorem witness_CyclesRunOnlyInRunning :
    (img []).run = .running ∧ ({ img [] with run := .halted .success } : State).run ≠ .running := by decide

theorem witness_FailuresLeaveTheStateAlone :
    (img [1, 32767, 0, 0]).run = .running ∧
    (img [1, 32767, 0, 0]).decodeNext.toOption = none ∧
    nextIs (exec .ret (img [])) (fun t => decide (t.run = .halted (.failure .emptyStack))) = true := by decide

theorem witness_HandlerFailuresByInstruction :
    nextIs (exec (.pop 7) (img [])) (fun t => decide (t.run = .halted (.failure .emptyStack))) = true ∧
    nextIs (exec (.call (.lit 0)) { img [] with cfg := { Config.default with stackDepth := some 0 } })
      (fun t => decide (t.run = .halted (.failure .stackOverflow))) = true ∧
    nextIs (exec (.mod 0 (.lit 1) (.reg 1)) (img []))
      (fun t => decide (t.run = .halted (.failure .divisionByZero))) = true ∧
    nextIs (exec (.wmem (.lit 4) (.lit 0)) (img [0, 0, 0, 0]))
      (fun t => decide (t.run = .halted (.failure .outOfBounds))) = true ∧
    nextIs (exec (.inp 0) { img [] with hostIn := [.line []] })
      (fun t => decide (t.run = .halted (.failure .inputUnavailable))) = true := by decide

theorem witness_HaltAloneEndsInSuccess :
    nextIs (step (img [0, 0, 0, 0])) (fun t => decide (t.run = .halted .success)) = true ∧
    nextIs (step (img [21, 0, 0, 0])) (fun t => decide (t.run ≠ .halted .success)) = true := by decide

theorem witness_OnlyTheDestinationRegisterIsWritten :
    nextIs (exec (.set 7 (.lit 1)) (img [])) (fun t => decide (t.reg 7 = 1)) = true ∧
    destination (.set 7 (.lit 1)) ≠ some 6 := by decide

theorem witness_OnlyWmemWritesMemory :
    nextIs (step (img [16, 3, 9, 0])) (fun t => decide (t.word 3 = 9)) = true ∧
    nextIs (step (img [21, 0, 0, 0])) (fun t => decide (t.mem = (img [21, 0, 0, 0]).mem)) = true := by decide

theorem witness_OnlyFourInstructionsTouchTheStack :
    nextIs (exec (.push (.lit 7)) (img [])) (fun t => decide (t.stack = [7])) = true ∧
    nextIs (exec (.call (.lit 7)) (img [])) (fun t => decide (t.stack = [2])) = true ∧
    nextIs (exec .ret { img [] with stack := [7] }) (fun t => decide (t.stack = [])) = true ∧
    nextIs (exec .noop { img [] with stack := [7] }) (fun t => decide (t.stack = [7])) = true := by decide

theorem witness_OnlyFlowInstructionsSetIp :
    nextIs (exec .noop (img [])) (fun t => decide (t.ip = 1)) = true ∧
    nextIs (exec (.jf (.lit 0) (.reg 0)) { img [] with ip := 5 }) (fun t => decide (t.ip = 0)) = true ∧
    nextIs (exec .ret { img [] with stack := [65535] }) (fun t => decide (t.ip = 65535)) = true ∧
    nextIs (exec (.inp 0) (img [])) (fun t => decide (t = img [])) = true := by decide

theorem witness_InputIsReachedOnlyThroughIn :
    nextIs (exec .noop { img [] with inQueue := [1] }) (fun t => decide (t.inQueue = [1])) = true ∧
    nextIs (exec (.inp 0) { img [] with inQueue := [1] }) (fun t => decide (t.inQueue = [])) = true ∧
    nextIs (exec (.inp 0) { img [] with hostIn := [.line [1]] }) (fun t => decide (t.hostIn = [])) = true := by decide

theorem witness_OutputLogOnlyGrows :
    (State.load Config.default [0, 0]).isSome = true ∧
    nextIs (step (img [19, 256, 0, 0])) (fun t => decide (t.outLog = [0])) = true ∧
    nextIs (step { img [21, 0, 0, 0] with outLog := [1] }) (fun t => decide (t.outLog = [1])) = true := by decide

theorem witness_StackOverflowOnlyAtAFiniteDepth :
    ((img []).run = .running ∧ (img []).cfg.stackDepth = none ∧
      nextIs (exec (.push (.lit 0)) (img [])) (fun _ => true) = true) ∧
    (({ img [] with cfg := { Config.default with stackDepth := some 0 } } : State).cfg.stackDepth = some 0 ∧
      ({ img [] with cfg := { Config.default with stackDepth := some 0 } } : State).stack.length = 0) := by decide

theorem witness_OtherInstructionsIgnoreTheInput : ∀ d, Instr.noop ≠ .inp d := by decide

/-- A state that holds only small words. -/
def smallState : State := withReg { img [32767, 0, 0, 0] with stack := [32767], ip := 32765 } 0 32767

theorem witness_SmallWordsStaySmall :
    (nextIs (exec (.or 1 (.reg 0) (.lit 0)) smallState) (fun t => decide (t.reg 1 = 32767)) = true ∧
      ∀ o ∈ valueOperands (.or 1 (.reg 0) (.lit 0)), (smallState.value o).toNat ≤ 32767) ∧
    (nextIs (exec (.rmem 1 (.lit 0)) smallState) (fun t => decide (t.reg 1 = 32767)) = true ∧
      (smallState.word 0).toNat ≤ 32767) ∧
    (nextIs (exec (.pop 1) smallState) (fun t => decide (t.reg 1 = 32767)) = true ∧
      ∀ v ∈ smallState.stack.head?, v.toNat ≤ 32767) ∧
    (nextIs (exec (.call (.lit 0)) smallState) (fun t => decide (t.stack = [32767, 32767])) = true ∧
      smallState.ip + 2 ≤ 32767) := by decide +kernel

theorem witness_WrittenWordIsFetched :
    ((img [0, 0, 0, 0]).value (.lit 3)).toNat < (img [0, 0, 0, 0]).memLen ∧
    (0 ≤ ((img [0, 0, 0, 0]).value (.lit 3)).toNat ∧ ((img [0, 0, 0, 0]).value (.lit 3)).toNat < 0 + 4 ∧
      0 + 4 ≤ (img [0, 0, 0, 0]).memLen) := by decide

theorem witness_ReturnComesBackAfterTheCall :
    ({ img [0, 17, 3, 0, 0] with ip := 1 } : State).ip + 4 ≤ (img [0, 17, 3, 0, 0]).memLen ∧
    (img [0, 17, 3, 0, 0]).memLen ≤ 65536 ∧ (img [0, 17, 3, 0, 0]).cfg.stackDepth = none ∧
    nextIs (exec (.call (.lit 3)) { img [0, 17, 3, 0, 0] with ip := 1 })
      (fun t => decide (({ img [] with stack := [3] } : State).stack = t.stack)) = true := by decide

theorem witness_LastPushedIsFirstPopped :
    (0 : Reg) ≠ 1 ∧ (img []).stack = [] ∧
    (∀ n, ({ img [] with cfg := { Config.default with stackDepth := some 2 } } : State).cfg.stackDepth = some n →
      ({ img [] with cfg := { Config.default with stackDepth := some 2 } } : State).stack.length + 2 ≤ n) := by
  refine ⟨by decide, rfl, ?_⟩
  intro n h
  cases h
  decide

theorem witness_NotTwiceGivesTheValueBack : ((img []).value (.lit 32767)).toNat ≤ 32767 := by decide

theorem witness_LineIsDeliveredByteByByte :
    ({ img [] with hostIn := [.line [65, 66, 10], .unavailable] } : State).inQueue = [] ∧
    ({ img [] with hostIn := [.line [65, 66, 10], .unavailable] } : State).hostIn =
      .line [65, 66, 10] :: [.unavailable] ∧ 1 ≤ 3 ∧ 3 ≤ ([65, 66, 10] : List Byte).length := by decide

theorem witness_SilentHostKeepsTheMachineWaiting : (img [20, 32775, 0, 0]).awaitingInput :=
  ⟨by decide, ⟨7, rfl⟩, rfl, rfl⟩

/-! The clauses of `InstructionRule`: a window one word too long, a wrong operand word next to a right
one, and the instruction itself. -/

/-- The premises of all three clauses. -/
def atOpcode (op : Fin 22) (s : State) : Bool :=
  decide (s.run = .running ∧ s.cfg.wf = true ∧ s.windowWord 0 = s.cfg.opcodes[op])

/-- `s1` meets the first clause's hypotheses, `s2` the second's, and every state of `good` the third's. -/
def ruleWitness (op : Fin 22) (roles : List Role) (s1 s2 : State) (good : List State) : Bool :=
  atOpcode op s1 && decide (s1.memLen < s1.ip + 4) &&
  (atOpcode op s2 && decide (s2.ip + 4 ≤ s2.memLen) &&
    !(s2.operandsRight 1 roles && s2.unusedRight (roles.length + 1))) &&
  good.all fun s => atOpcode op s && decide (s.ip + 4 ≤ s.memLen) &&
    (s.operandsRight 1 roles && s.unusedRight (roles.length + 1))

/-- The state with unused window words checked. -/
def checked (s : State) : State := { s with cfg := { s.cfg with checkUnused := true } }

theorem witness_HaltAndNoopRules :
    ruleWitness 0 [] (img [0, 0, 0]) (checked (img [0, 32776, 0, 0])) [img [0, 32776, 0, 0], checked (img [0, 32775, 0, 0])] = true ∧
    ruleWitness 21 [] (img [21, 0, 0]) (checked (img [21, 0, 0, 32776])) [img [21, 65535, 0, 0]] = true := by decide

theorem witness_SetRule :
    ruleWitness 1 [.dest, .value] (img [1, 32768, 5]) (img [1, 32767, 5, 0])
      [img [1, 32768, 32767, 0], img [1, 32775, 32775, 0]] = true := by decide

theorem witness_PushRule :
    ruleWitness 2 [.value] (img [2, 7, 0]) (img [2, 32776, 0, 0])
      [{ img [2, 32775, 0, 0] with stack := [1, 2], cfg := { Config.default with stackDepth := some 2 } },
       { img [2, 32775, 0, 0] with stack := [1], cfg := { Config.default with stackDepth := some 2 } }] = true := by decide

theorem witness_PopRule :
    ruleWitness 3 [.dest] (img [3, 32768, 0]) (img [3, 32776, 0, 0])
      [img [3, 32775, 0, 0], { img [3, 32768, 0, 0] with stack := [65535] }] = true := by decide

theorem witness_EqAndGtRules :
    ruleWitness 4 [.dest, .value, .value] (img [4, 32768, 0]) (img [4, 32768, 0, 32776])
      [img [4, 32775, 32775, 32767]] = true ∧
    ruleWitness 5 [.dest, .value, .value] (img [5, 32768, 0]) (img [5, 32768, 32776, 0])
      [img [5, 32775, 32767, 32775]] = true := by decide

theorem witness_JmpRule :
    ruleWitness 6 [.value] (img [6, 0, 0]) (img [6, 32776, 0, 0]) [img [6, 32767, 0, 0], img [6, 32775, 0, 0]] = true := by
  decide

theorem witness_JtAndJfRules :
    ruleWitness 7 [.value, .value] (img [7, 0, 0]) (img [7, 0, 32776, 0]) [img [7, 0, 5, 0], img [7, 1, 5, 0]] = true ∧
    ruleWitness 8 [.value, .value] (img [8, 0, 0]) (img [8, 32776, 0, 0]) [img [8, 0, 5, 0], img [8, 1, 5, 0]] = true := by
  decide

theorem witness_AddAndMultRules :
    ruleWitness 9 [.dest, .value, .value] (img [9, 32768, 0]) (img [9, 0, 0, 0]) [img [9, 32768, 32767, 32767]] = true ∧
    ruleWitness 10 [.dest, .value, .value] (img [10, 32768, 0]) (img [10, 0, 0, 0])
      [img [10, 32768, 32767, 32767]] = true := by decide

theorem witness_ModRule :
    ruleWitness 11 [.dest, .value, .value] (img [11, 32768, 0]) (img [11, 0, 0, 0])
      [img [11, 32768, 5, 0], img [11, 32768, 5, 1]] = true ∧
    (img [11, 32768, 5, 0]).valueAt 3 = 0 ∧ (img [11, 32768, 5, 1]).valueAt 3 = 1 := by decide

theorem witness_AndAndOrRules :
    ruleWitness 12 [.dest, .value, .value] (img [12, 32768, 0]) (img [12, 0, 0, 0]) [img [12, 32775, 32767, 32775]] = true ∧
    ruleWitness 13 [.dest, .value, .value] (img [13, 32768, 0]) (img [13, 0, 0, 0]) [img [13, 32775, 32767, 32775]] = true := by
  decide

theorem witness_NotRule :
    ruleWitness 14 [.dest, .value] (img [14, 32768, 0]) (img [14, 32768, 32776, 0]) [img [14, 32775, 32775, 0]] = true := by
  decide

theorem witness_RmemRule :
    ruleWitness 15 [.dest, .value] (img [15, 32768, 0]) (img [15, 32768, 32776, 0])
      [img [15, 32768, 4, 0], img [15, 32768, 3, 0]] = true ∧
    (img [15, 32768, 4, 0]).valueAt 2 = (img [15, 32768, 4, 0]).memLen := by decide

theorem witness_WmemRule :
    ruleWitness 16 [.value, .value] (img [16, 0, 0]) (img [16, 0, 32776, 0])
      [img [16, 4, 0, 0], img [16, 3, 32775, 0]] = true ∧
    (img [16, 4, 0, 0]).valueAt 1 = (img [16, 4, 0, 0]).memLen := by decide

theorem witness_CallRule :
    ruleWitness 17 [.value] (img [17, 0, 0]) (img [17, 32776, 0, 0])
      [{ img [17, 0, 0, 0] with cfg := { Config.default with stackDepth := some 0 } }, { img [17, 32767, 0, 0] with cfg := { Config.default with stackDepth := some 1 } }] = true := by
  decide

theorem witness_RetRule :
    ruleWitness 18 [] (img [18, 0, 0]) (checked (img [18, 0, 32776, 0]))
      [img [18, 0, 0, 0], { img [18, 0, 0, 0] with stack := [65535] }] = true := by decide

theorem witness_OutRule :
    ruleWitness 19 [.value] (img [19, 0, 0]) (img [19, 32776, 0, 0]) [img [19, 32767, 0, 0]] = true := by decide

theorem witness_InRule :
    ruleWitness 20 [.dest] (img [20, 32768, 0]) (img [20, 32767, 0, 0])
      [{ img [20, 32768, 0, 0] with inQueue := [255] },
       { img [20, 32768, 0, 0] with hostIn := [.line [10]] },
       { img [20, 32768, 0, 0] with hostIn := [.unavailable] },
       { img [20, 32768, 0, 0] with hostIn := [.line []] },
       img [20, 32775, 0, 0]] = true := by decide

theorem witness_RegisterInstructionsComplete : (img []).value (.lit 1) ≠ 0 := by decide

theorem witness_StackInstructionsComplete :
    (∀ n, ({ img [] with cfg := { Config.default with stackDepth := some 1 }, ip := 65533 } : State).cfg.stackDepth = some n →
      ({ img [] with cfg := { Config.default with stackDepth := some 1 }, ip := 65533 } : State).stack.length < n) ∧
    ({ img [] with cfg := { Config.default with stackDepth := some 1 }, ip := 65533 } : State).ip + 2 ≤ 65535 ∧
    ({ img [] with stack := [1, 2] } : State).stack = 1 :: [2] := by
  refine ⟨?_, by decide, rfl⟩
  intro n h
  cases h
  decide

theorem witness_MemoryInstructionsComplete :
    ((img [0, 0, 0, 0]).value (.lit 3)).toNat < (img [0, 0, 0, 0]).memLen := by decide

theorem witness_InputInstructionCompletes :
    ({ img [] with inQueue := [65, 10] } : State).inQueue = 65 :: [10] ∧
    (({ img [] with hostIn := [.line [65, 10]] } : State).inQueue = [] ∧
      ({ img [] with hostIn := [.line [65, 10]] } : State).hostIn = .line (65 :: [10]) :: []) := by decide

theorem witness_HandlersFailWhereTheSpecSays :
    (({ img [] with stack := [1], cfg := { Config.default with stackDepth := some 1 } } : State).cfg.stackDepth = some 1 ∧
      1 ≤ ({ img [] with stack := [1], cfg := { Config.default with stackDepth := some 1 } } : State).stack.length) ∧
    (img []).stack = [] ∧ (img []).value (.reg 0) = 0 ∧
    (img [0, 0, 0, 0]).memLen ≤ ((img [0, 0, 0, 0]).value (.lit 4)).toNat ∧
    (({ img [] with hostIn := [.line []] } : State).inQueue = [] ∧
      ({ img [] with hostIn := [.line []] } : State).hostIn = .line [] :: []) ∧
    ({ img [] with hostIn := [.unavailable] } : State).hostIn = .unavailable :: [] := by decide

end Sys2Proof.Tests
end

/-! ### What one instruction does

Said once, beside `exec`: every end a cycle can come to, with the next state written out. -/

namespace Sys2Proof.Machine

/-- The word an instruction computes for its destination from registers and memory alone; none for
an instruction that takes its word from elsewhere or has no destination, and none where the handler
fails. -/
def computed (s : State) : Instr → Option Word
  | .set _ v => some (s.value v)
  | .eq _ a b => some (eqWord (s.value a) (s.value b))
  | .gt _ a b => some (gtWord (s.value a) (s.value b))
  | .add _ a b => some (aluAdd (s.value a) (s.value b))
  | .mult _ a b => some (aluMult (s.value a) (s.value b))
  | .mod _ a b => (aluMod (s.value a) (s.value b)).toOption
  | .and _ a b => some (aluAnd (s.value a) (s.value b))
  | .or _ a b => some (aluOr (s.value a) (s.value b))
  | .not _ a => some (aluNot (s.value a))
  | .rmem _ a => (s.memRead (s.value a).toNat).toOption
  | _ => none

/-- The handler failures that do not come from the host (60_exceptions.md R242). -/
inductive HandlerFails (s : State) : Instr → FailureKind → Prop where
  | push {a : Operand} : s.stackFull = true → HandlerFails s (.push a) .stackOverflow
  | call {a : Operand} : s.stackFull = true → HandlerFails s (.call a) .stackOverflow
  | pop {d : Reg} : s.stack = [] → HandlerFails s (.pop d) .emptyStack
  | ret : s.stack = [] → HandlerFails s .ret .emptyStack
  | mod {d : Reg} {a b : Operand} : s.value b = 0 → HandlerFails s (.mod d a b) .divisionByZero
  | rmem {d : Reg} {a : Operand} :
      s.memLen ≤ (s.value a).toNat → HandlerFails s (.rmem d a) .outOfBounds
  | wmem {a v : Operand} :
      s.memLen ≤ (s.value a).toNat → HandlerFails s (.wmem a v) .outOfBounds

/-- `Effect s i t`: the cycle of `i` that begins in `s` ends in `t` (40_execution_cycle.md R121 to
R125). -/
inductive Effect (s : State) : Instr → State → Prop where
  | compute {i : Instr} {d : Reg} {v : Word} : destination i = some d → computed s i = some v →
      Effect s i ((s.advance i.len).setReg d v)
  | push {a : Operand} : s.stackFull = false →
      Effect s (.push a) { s.advance (Instr.push a).len with stack := s.value a :: s.stack }
  | pop {d : Reg} {v : Word} {rest : List Word} : s.stack = v :: rest →
      Effect s (.pop d) ({ s.advance (Instr.pop d).len with stack := rest }.setReg d v)
  | call {a : Operand} : s.stackFull = false →
      Effect s (.call a) ({ s.advance (Instr.call a).len with
        stack := returnWord (s.ip + 2) :: s.stack }.jump (s.value a))
  | ret {v : Word} {rest : List Word} : s.stack = v :: rest →
      Effect s .ret ({ s.advance Instr.ret.len with stack := rest }.jump v)
  | jmp {t : Operand} : Effect s (.jmp t) (s.jump (s.value t))
  | jtTaken {c t : Operand} : truth (s.value c) = true → Effect s (.jt c t) (s.jump (s.value t))
  | jtPassed {c t : Operand} : truth (s.value c) = false →
      Effect s (.jt c t) (s.advance (Instr.jt c t).len)
  | jfTaken {c t : Operand} : truth (s.value c) = false → Effect s (.jf c t) (s.jump (s.value t))
  | jfPassed {c t : Operand} : truth (s.value c) = true →
      Effect s (.jf c t) (s.advance (Instr.jf c t).len)
  | noop : Effect s .noop (s.advance Instr.noop.len)
  | halt : Effect s .halt { s.advance Instr.halt.len with run := .halted .success }
  | wmem {a v : Operand} : (s.value a).toNat < s.memLen →
      Effect s (.wmem a v) { s.advance (Instr.wmem a v).len with
        mem := writeWord s.mem (s.value a).toNat (s.value v) }
  | out {c : Operand} :
      Effect s (.out c) ((s.advance (Instr.out c).len).send (lowByte (s.value c)))
  | inQueued {d : Reg} {b : Byte} {rest : List Byte} : s.inQueue = b :: rest →
      Effect s (.inp d) ({ s.advance (Instr.inp d).len with inQueue := rest }.setReg d (zext16 b))
  | inLine {d : Reg} {b : Byte} {rest : List Byte} {more : List InResponse} :
      s.inQueue = [] → s.hostIn = .line (b :: rest) :: more →
      Effect s (.inp d) ({ s.advance (Instr.inp d).len with
        inQueue := rest, hostIn := more,
        inLog := s.inLog ++ [InResponse.line (b :: rest)] }.setReg d (zext16 b))
  | inUnavailable {d : Reg} {r : InResponse} {more : List InResponse} :
      r = .line [] ∨ r = .unavailable → s.inQueue = [] → s.hostIn = r :: more →
      Effect s (.inp d) ({ s.advance (Instr.inp d).len with
        hostIn := more, inLog := s.inLog ++ [r] }.fail .inputUnavailable)
  | inWaiting {d : Reg} : s.inQueue = [] → s.hostIn = [] → Effect s (.inp d) s
  | fail {i : Instr} {k : FailureKind} : HandlerFails s i k → Effect s i ((s.advance i.len).fail k)

theorem aluMod_ok {a b v : Word} :
    aluMod a b = .ok v ↔ b ≠ 0 ∧ v = BitVec.ofNat 16 (a.toNat % b.toNat) := by
  unfold aluMod
  split
  · next hb => simp [hb]
  · next hb => simp only [Except.ok.injEq, ne_eq, hb, not_false_eq_true, true_and, eq_comm]

theorem except_toOption_eq_some {α : Type} {r : Except FailureKind α} {v : α} :
    r.toOption = some v ↔ r = .ok v := by
  cases r <;> simp [Except.toOption]

theorem handled_map_ok {α : Type} {s : State} {r : Except FailureKind α} {f : α → State} {x : α}
    (h : r = .ok x) : handled s (r.map f) = .next (f x) := by
  subst h; rfl

theorem handled_map_error {α : Type} {s : State} {r : Except FailureKind α} {f : α → State}
    {k : FailureKind} (h : r = .error k) : handled s (r.map f) = .next (s.fail k) := by
  subst h; rfl

/-- A cycle that computes a word for its destination writes that word. -/
theorem exec_of_computed {s : State} {i : Instr} {d : Reg} {v : Word}
    (hd : destination i = some d) (hv : computed s i = some v) :
    exec i s = .next ((s.advance i.len).setReg d v) := by
  cases i with
  | mod e a b => cases hd; exact handled_map_ok (except_toOption_eq_some.mp hv)
  | rmem e a => cases hd; exact handled_map_ok (except_toOption_eq_some.mp hv)
  | _ => cases hd <;> cases hv <;> rfl

/-- A handler that fails leaves `ip` advanced and nothing else written (40_execution_cycle.md R124). -/
theorem exec_of_handlerFails {s : State} {i : Instr} {k : FailureKind} (h : HandlerFails s i k) :
    exec i s = .next ((s.advance i.len).fail k) := by
  cases h with
  | push h => exact handled_next.mpr (.inr ⟨_, State.push_error.mpr ⟨h, rfl⟩, rfl⟩)
  | call h => exact handled_map_error (State.push_error.mpr ⟨h, rfl⟩)
  | pop h => exact handled_map_error (State.pop_error.mpr ⟨h, rfl⟩)
  | ret h => exact handled_map_error (State.pop_error.mpr ⟨h, rfl⟩)
  | mod h => exact handled_map_error (if_pos h)
  | rmem h => exact handled_map_error (State.memRead_error.mpr ⟨h, rfl⟩)
  | wmem h => exact handled_next.mpr (.inr ⟨_, State.memWrite_error.mpr ⟨h, rfl⟩, rfl⟩)

/-- Each end listed in `Effect` is the one `exec` comes to. -/
theorem exec_of_effect {s t : State} {i : Instr} (h : Effect s i t) : exec i s = .next t := by
  cases h with
  | compute hd hv => exact exec_of_computed hd hv
  | fail h => exact exec_of_handlerFails h
  | push h => exact handled_next.mpr (.inl (State.push_ok.mpr ⟨h, rfl⟩))
  | wmem h => exact handled_next.mpr (.inl (State.memWrite_ok.mpr ⟨h, rfl⟩))
  | call h => exact handled_map_ok (State.push_ok.mpr ⟨h, rfl⟩)
  | pop h => exact handled_map_ok (State.pop_ok.mpr ⟨h, rfl⟩)
  | ret h => exact handled_map_ok (State.pop_ok.mpr ⟨h, rfl⟩)
  | jtTaken h => exact congrArg _ (if_pos h)
  | jtPassed h => exact congrArg _ (if_neg (by simp [h]))
  | jfTaken h => exact congrArg _ (if_neg (by simp [h]))
  | jfPassed h => exact congrArg _ (if_pos h)
  | inQueued h => simp [exec, execIn, State.nextByte, h]
  | inLine hq hh => simp [exec, execIn, State.nextByte, State.readLine, hq, hh]
  | inUnavailable hr hq hh =>
    obtain rfl | rfl := hr <;> simp [exec, execIn, State.nextByte, State.readLine, hq, hh]
  | inWaiting hq hh => simp [exec, execIn, State.nextByte, State.readLine, hq, hh]
  | _ => rfl

/-- Every cycle comes to one of the ends listed in `Effect`. -/
theorem exists_effect (i : Instr) (s : State) : ∃ t, Effect s i t := by
  cases i with
  | halt => exact ⟨_, .halt⟩
  | noop => exact ⟨_, .noop⟩
  | jmp t => exact ⟨_, .jmp⟩
  | out c => exact ⟨_, .out⟩
  | jt c t =>
    cases h : truth (s.value c) with
    | true => exact ⟨_, .jtTaken h⟩
    | false => exact ⟨_, .jtPassed h⟩
  | jf c t =>
    cases h : truth (s.value c) with
    | true => exact ⟨_, .jfPassed h⟩
    | false => exact ⟨_, .jfTaken h⟩
  | push a =>
    cases h : s.stackFull with
    | true => exact ⟨_, .fail (.push h)⟩
    | false => exact ⟨_, .push h⟩
  | call a =>
    cases h : s.stackFull with
    | true => exact ⟨_, .fail (.call h)⟩
    | false => exact ⟨_, .call h⟩
  | pop d =>
    cases h : s.stack with
    | nil => exact ⟨_, .fail (.pop h)⟩
    | cons v rest => exact ⟨_, .pop h⟩
  | ret =>
    cases h : s.stack with
    | nil => exact ⟨_, .fail (.ret h)⟩
    | cons v rest => exact ⟨_, .ret h⟩
  | mod d a b =>
    by_cases h : s.value b = 0
    · exact ⟨_, .fail (.mod h)⟩
    · exact ⟨_, .compute rfl (except_toOption_eq_some.mpr (aluMod_ok.mpr ⟨h, rfl⟩))⟩
  | rmem d a =>
    by_cases h : (s.value a).toNat < s.memLen
    · exact ⟨_, .compute rfl (except_toOption_eq_some.mpr (State.memRead_ok.mpr ⟨h, rfl⟩))⟩
    · exact ⟨_, .fail (.rmem (Nat.le_of_not_lt h))⟩
  | wmem a v =>
    by_cases h : (s.value a).toNat < s.memLen
    · exact ⟨_, .wmem h⟩
    · exact ⟨_, .fail (.wmem (Nat.le_of_not_lt h))⟩
  | inp d =>
    obtain ⟨b, rest, hq, -⟩ | ⟨hq, hh, -⟩ | ⟨b, rest, more, hq, hh, -⟩ | ⟨r, more, hr, hq, hh, -⟩ :=
      s.nextByte_cases
    · exact ⟨_, .inQueued hq⟩
    · exact ⟨_, .inWaiting hq hh⟩
    · exact ⟨_, .inLine hq hh⟩
    · exact ⟨_, .inUnavailable hr hq hh⟩
  | _ => exact ⟨_, .compute rfl rfl⟩

/-- `Effect` is what `exec` does. -/
theorem exec_next_iff {i : Instr} {s t : State} : exec i s = .next t ↔ Effect s i t := by
  refine ⟨fun h => ?_, exec_of_effect⟩
  obtain ⟨u, hu⟩ := exists_effect i s
  cases h.symm.trans (exec_of_effect hu)
  exact hu

end Sys2Proof.Machine

/-! ### What each operation keeps of the invariant -/

namespace Sys2Proof.Machine

theorem len_le_four (i : Instr) : i.len ≤ 4 := by
  cases i <;> simp [Instr.len]

/-- What is left of a line after its first byte has no newline before its last byte either. -/
theorem dropLast_tail_of_line {b : Byte} {rest : List Byte}
    (h : (b :: rest).dropLast.contains 10 = false) : rest.dropLast.contains 10 = false := by
  cases rest with
  | nil => rfl
  | cons c cs => simp_all

theorem dropLast_of_legalLine {bs : List Byte} (h : legalLine bs = true) :
    bs.dropLast.contains 10 = false := by
  simp only [legalLine, Bool.and_eq_true, Bool.not_eq_true'] at h
  exact h.2

/-- What a host may give stays so when its next answer is taken. -/
theorem legalAnswers_tail {r : InResponse} {more : List InResponse}
    (h : legalAnswers (r :: more) = true) : legalAnswers more = true := by
  cases r <;> simp_all [legalAnswers]

theorem legalLine_of_legalAnswers {bs : List Byte} {more : List InResponse}
    (h : legalAnswers (.line bs :: more) = true) : legalLine bs = true := by
  simp_all [legalAnswers]

section
variable {s : State} (h : s.Inv)
include h

/-- A window that fits leaves room for `ip` to advance (10_state.md R28). -/
theorem State.Inv.advance (hfit : s.ip + 4 ≤ s.memLen) (i : Instr) : (s.advance i.len).Inv :=
  { h with
    ipBound := by
      have := h.memSize
      have := len_le_four i
      simp only [State.ip_advance]
      omega }

/-- A word is an `ip` (10_state.md R28). -/
theorem State.Inv.jump (w : Word) : (s.jump w).Inv :=
  { h with ipBound := by have := w.isLt; simp only [State.ip_jump]; omega }

theorem State.Inv.setReg (d : Reg) (v : Word) : (s.setReg d v).Inv :=
  { h with }

theorem State.Inv.withRun (r : RunState) : State.Inv { s with run := r } :=
  { h with }

theorem State.Inv.send (b : Byte) : (s.send b).Inv :=
  { h with }

theorem State.Inv.pushed (hfull : s.stackFull = false) (w : Word) :
    State.Inv { s with stack := w :: s.stack } :=
  { h with
    stackBound := by
      intro d hd
      have hlt : s.stack.length < d := by
        by_contra hle
        cases hfull.symm.trans (State.stackFull_iff.mpr ⟨d, hd, Nat.le_of_not_lt hle⟩)
      exact hlt }

theorem State.Inv.popped {w : Word} {rest : List Word} (hs : s.stack = w :: rest) :
    State.Inv { s with stack := rest } :=
  { h with
    stackBound := by
      intro d hd
      have := h.stackBound d hd
      simp only [hs, List.length_cons] at this
      exact Nat.le_of_succ_le this }

theorem State.Inv.written {a : Nat} (ha : a < s.memLen) (v : Word) :
    State.Inv { s with mem := writeWord s.mem a v } :=
  { h with
    memCanonical := wf_writeWord a v h.memCanonical
    memInside := by
      intro c hc
      obtain hlo | hhi | hold := mem_writeWord hc
      · simp only [hlo]; omega
      · simp only [hhi]; omega
      · exact h.memInside c hold }

/-- The input side after a byte or an answer is taken. -/
theorem State.Inv.withInput {q : List Byte} {rs : List InResponse} (log : List InResponse)
    (hq : q.dropLast.contains 10 = false) (hrs : legalAnswers rs = true) :
    State.Inv { s with inQueue := q, hostIn := rs, inLog := log } :=
  { h with queueLine := hq, answersLegal := hrs }

end

/-- Every end of a cycle keeps the invariant, if the cycle's window fitted. -/
theorem Effect.inv {s t : State} {i : Instr} (he : Effect s i t) (h : s.Inv)
    (hfit : s.ip + 4 ≤ s.memLen) : t.Inv := by
  have hadv := h.advance hfit i
  cases he with
  | compute => exact hadv.setReg _ _
  | push hf => exact hadv.pushed hf _
  | pop hs => exact (hadv.popped hs).setReg _ _
  | call hf => exact (hadv.pushed hf _).jump _
  | ret hs => exact (hadv.popped hs).jump _
  | jmp | jtTaken | jfTaken => exact h.jump _
  | jtPassed | jfPassed | noop => exact hadv
  | halt | fail => exact hadv.withRun _
  | wmem ha => exact hadv.written ha _
  | out => exact hadv.send _
  | inQueued hq =>
    have hline := h.queueLine
    rw [hq] at hline
    exact (hadv.withInput s.inLog (dropLast_tail_of_line hline) h.answersLegal).setReg _ _
  | inLine _ hh =>
    have hans := h.answersLegal
    rw [hh] at hans
    have hline := dropLast_of_legalLine (legalLine_of_legalAnswers hans)
    exact (hadv.withInput _ (dropLast_tail_of_line hline) (legalAnswers_tail hans)).setReg _ _
  | inUnavailable _ _ hh =>
    have hans := h.answersLegal
    rw [hh] at hans
    exact (hadv.withInput _ h.queueLine (legalAnswers_tail hans)).withRun _
  | inWaiting => exact h

/-- Settles O5: a decode failure changes the run state alone, and a decoded instruction stood in a
window that fits, so each of the ends of its cycle keeps the invariant. -/
theorem stepKeepsInvariant : Obligations.StepKeepsInvariant := by
  intro s t h ht
  obtain ⟨st, -, hs⟩ | ⟨k, -, -, hs⟩ | ⟨i, -, hd, hs⟩ := step_cases s
  · simp [hs] at ht
  · cases hs.symm.trans ht
    exact h.withRun _
  · obtain ⟨hfit, -⟩ := State.decodeNext_ok.mp hd
    exact (exec_next_iff.mp (hs.symm.trans ht)).inv h hfit

/-- Every loaded state meets the invariant (70_reset_and_hazards.md R270, R271). -/
theorem inv_of_load {cfg : Config} {image : List Byte} {s : State} (hcfg : cfg.wf = true)
    (h : State.load cfg image = some s) : s.Inv := by
  unfold State.load at h
  split at h
  · next himg =>
    cases h
    exact {
      memCanonical := wf_cellsOf image
      memInside := fun c hc => by
        have := mem_cellsOf hc
        show c.1 < 2 * (image.length / 2)
        omega
      memSize := himg.2
      ipBound := Nat.zero_le _
      stackBound := fun _ _ => Nat.zero_le _
      queueLine := rfl
      answersLegal := rfl
      opcodesDistinct := hcfg }
  · cases h

/-- Settles O6, by induction on the run. -/
theorem reachableStatesMeetInvariant : Obligations.ReachableStatesMeetInvariant := by
  intro s hr
  induction hr with
  | load cfg image s hcfg hload => exact inv_of_load hcfg hload
  | answers s rs _ hlegal ih => exact { ih with answersLegal := hlegal }
  | step s t _ ht ih => exact stepKeepsInvariant s t ih ht

/-! ### Who writes what -/

/-- Settles O20: the computing instructions, `pop` and `in` write their destination, the other ends no
register. -/
theorem onlyTheDestinationRegisterIsWritten : Obligations.OnlyTheDestinationRegisterIsWritten := by
  intro i s t r ht hr
  have other : ∀ {d : Reg}, destination i = some d → r ≠ d := by
    rintro d hd rfl
    exact hr hd
  cases exec_next_iff.mp ht with
  | compute hd => exact State.reg_setReg_other _ (other hd) _
  | pop | inQueued | inLine => exact State.reg_setReg_other _ (other rfl) _
  | _ => rfl

/-- Settles O22: only the four instructions, where they succeed, have an end with another stack. -/
theorem onlyFourInstructionsTouchTheStack : Obligations.OnlyFourInstructionsTouchTheStack := by
  intro i s t ht
  cases exec_next_iff.mp ht with
  | push => exact .inr (.inl ⟨_, rfl, rfl⟩)
  | call => exact .inr (.inr (.inl ⟨_, _, rfl, rfl⟩))
  | pop hs => exact .inr (.inr (.inr ⟨_, .inr ⟨_, rfl⟩, hs⟩))
  | ret hs => exact .inr (.inr (.inr ⟨_, .inl rfl, hs⟩))
  | _ => exact .inl rfl

/-- Settles O23: every end of a cycle but a jump taken, a call, a return and the wait of an `in` has
`ip` advanced by the length. -/
theorem onlyFlowInstructionsSetIp : Obligations.OnlyFlowInstructionsSetIp := by
  intro i s t ht
  cases exec_next_iff.mp ht with
  | jmp => exact .inr (.inl ⟨_, .inl rfl, rfl⟩)
  | call => exact .inr (.inl ⟨_, .inr (.inl rfl), rfl⟩)
  | jtTaken => exact .inr (.inl ⟨_, .inr (.inr (.inl ⟨_, rfl⟩)), rfl⟩)
  | jfTaken => exact .inr (.inl ⟨_, .inr (.inr (.inr ⟨_, rfl⟩)), rfl⟩)
  | ret hs => exact .inr (.inr (.inl ⟨_, rfl, hs, rfl⟩))
  | inWaiting hq hh => exact .inr (.inr (.inr ⟨_, rfl, hq, hh, rfl⟩))
  | _ => exact .inl rfl

/-- Settles O24: the three ends of an `in` that is not waiting are the only ones that move the input
side. -/
theorem inputIsReachedOnlyThroughIn : Obligations.InputIsReachedOnlyThroughIn := by
  intro i s t ht
  cases exec_next_iff.mp ht with
  | inQueued hq => exact .inr ⟨_, rfl, .inl ⟨_, hq, rfl, rfl⟩⟩
  | inLine hq hh => exact .inr ⟨_, rfl, .inr ⟨_, hq, hh, rfl⟩⟩
  | inUnavailable _ hq hh => exact .inr ⟨_, rfl, .inr ⟨_, hq, hh, rfl⟩⟩
  | _ => exact .inl ⟨rfl, rfl, rfl⟩

theorem HandlerFails.stackFull_of_stackOverflow {s : State} {i : Instr}
    (h : HandlerFails s i .stackOverflow) : s.stackFull = true := by
  cases h with
  | push hf | call hf => exact hf

/-- Settles O26: StackOverflow needs a full stack, which an unbounded one never is; a stack of
`STACK_DEPTH` words is. -/
theorem stackOverflowOnlyAtAFiniteDepth : Obligations.StackOverflowOnlyAtAFiniteDepth := by
  constructor
  · intro i s t hrun hdepth ht hover
    cases exec_next_iff.mp ht with
    | fail hf =>
      cases hover
      obtain ⟨d, hd, -⟩ := State.stackFull_iff.mp hf.stackFull_of_stackOverflow
      simp [hdepth] at hd
    | halt | inUnavailable => cases hover
    | _ => cases hrun.symm.trans hover
  · intro a s n hdepth hlen
    have hfull : s.stackFull = true := State.stackFull_iff.mpr ⟨n, hdepth, hlen.ge⟩
    exact ⟨exec_of_handlerFails (.push hfull), exec_of_handlerFails (.call hfull)⟩

/-! ### Non-interference of the input side -/

/-- `s` with another input side. -/
def State.withInput (s : State) (q : List Byte) (rs log : List InResponse) : State :=
  { s with inQueue := q, hostIn := rs, inLog := log }

section
variable (s : State) (q : List Byte) (rs log : List InResponse)

@[simp] theorem State.value_withInput (o : Operand) : (s.withInput q rs log).value o = s.value o := by
  cases o <;> rfl

@[simp] theorem State.memLen_withInput : (s.withInput q rs log).memLen = s.memLen := rfl

@[simp] theorem State.memRead_withInput (a : Nat) : (s.withInput q rs log).memRead a = s.memRead a :=
  rfl

@[simp] theorem computed_withInput (i : Instr) : computed (s.withInput q rs log) i = computed s i := by
  cases i <;> simp [computed]

theorem HandlerFails.withInput {i : Instr} {k : FailureKind} (h : HandlerFails s i k) :
    HandlerFails (s.withInput q rs log) i k := by
  cases h with
  | push h => exact .push h
  | call h => exact .call h
  | pop h => exact .pop h
  | ret h => exact .ret h
  | mod h => exact .mod (by simpa using h)
  | rmem h => exact .rmem (by simpa using h)
  | wmem h => exact .wmem (by simpa using h)

/-- An instruction other than `in` does the same under another input side, which it leaves as it is. -/
theorem Effect.withInput {t : State} {i : Instr} (h : Effect s i t) (hi : ∀ d, i ≠ .inp d) :
    Effect (s.withInput q rs log) i (t.withInput q rs log) := by
  have hval := s.value_withInput q rs log
  cases h with
  | compute hd hv => exact .compute hd (by simpa using hv)
  | push h => rw [← hval]; exact .push h
  | pop h => exact .pop h
  | call h => rw [← hval]; exact .call h
  | ret h => exact .ret h
  | jmp => rw [← hval]; exact .jmp
  | jtTaken h => rw [← hval] at h ⊢; exact .jtTaken h
  | jtPassed h => rw [← hval] at h; exact .jtPassed h
  | jfTaken h => rw [← hval] at h ⊢; exact .jfTaken h
  | jfPassed h => rw [← hval] at h; exact .jfPassed h
  | noop => exact .noop
  | halt => exact .halt
  | wmem h => rw [← hval] at h; rw [← hval, ← hval]; exact .wmem h
  | out => rw [← hval]; exact .out
  | fail h => exact .fail (h.withInput s q rs log)
  | inQueued | inLine | inUnavailable | inWaiting => exact absurd rfl (hi _)

end

/-- Settles O27: the two cycles have the same effect, up to the input side. -/
theorem otherInstructionsIgnoreTheInput : Obligations.OtherInstructionsIgnoreTheInput := by
  intro i s q rs log hi
  obtain ⟨t, h⟩ := exists_effect i s
  exact ⟨t, exec_of_effect h, exec_of_effect (h.withInput s q rs log hi)⟩

/-! ### The 15-bit property -/

theorem toNat_boolWord_le (b : Bool) : (boolWord b).toNat ≤ 32767 := by
  cases b <;> decide

theorem toNat_ofNat_mod_le (n : Nat) : (BitVec.ofNat 16 (n % 32768)).toNat ≤ 32767 := by
  rw [BitVec.toNat_ofNat]
  omega

theorem toNat_zext16_le (b : Byte) : (zext16 b).toNat ≤ 32767 := by
  have := b.isLt
  simp only [zext16, BitVec.toNat_setWidth]
  omega

/-- A remainder is no more than the number divided (45_alu.md R182). -/
theorem toNat_aluMod_le {a b v : Word} (h : aluMod a b = .ok v) : v.toNat ≤ a.toNat := by
  obtain ⟨-, rfl⟩ := aluMod_ok.mp h
  have hle := Nat.mod_le a.toNat b.toNat
  have := a.isLt
  rw [BitVec.toNat_ofNat]
  omega

theorem toNat_aluAnd_le (a b : Word) : (aluAnd a b).toNat ≤ a.toNat := by
  rw [aluAnd, BitVec.toNat_and]
  exact Nat.and_le_left

theorem toNat_aluOr_le {a b : Word} (ha : a.toNat ≤ 32767) (hb : b.toNat ≤ 32767) :
    (aluOr a b).toNat ≤ 32767 := by
  have := Nat.or_lt_two_pow (n := 15) (Nat.lt_succ_of_le ha) (Nat.lt_succ_of_le hb)
  rw [aluOr, BitVec.toNat_or]
  omega

/-- `not` clears bit 15 (45_alu.md R185). -/
theorem toNat_aluNot_le (a : Word) : (aluNot a).toNat ≤ 32767 := by
  rw [aluNot, BitVec.toNat_and]
  exact Nat.and_le_right

/-- A word computed from words of at most 15 bits has at most 15. -/
theorem computed_le {s : State} {i : Instr} {v : Word} (h : computed s i = some v)
    (hops : ∀ o ∈ valueOperands i, (s.value o).toNat ≤ 32767)
    (hmem : ∀ d a, i = .rmem d a → (s.word (s.value a).toNat).toNat ≤ 32767) :
    v.toNat ≤ 32767 := by
  cases i with
  | set d a => cases h; exact hops _ (by simp [valueOperands])
  | eq | gt => cases h; exact toNat_boolWord_le _
  | add | mult => cases h; exact toNat_ofNat_mod_le _
  | mod d a b =>
    exact (toNat_aluMod_le (except_toOption_eq_some.mp h)).trans (hops a (by simp [valueOperands]))
  | and d a b => cases h; exact (toNat_aluAnd_le _ _).trans (hops a (by simp [valueOperands]))
  | or d a b =>
    cases h
    exact toNat_aluOr_le (hops a (by simp [valueOperands])) (hops b (by simp [valueOperands]))
  | not => cases h; exact toNat_aluNot_le _
  | rmem d a =>
    obtain ⟨-, rfl⟩ := State.memRead_ok.mp (except_toOption_eq_some.mp h)
    exact hmem d a rfl
  | _ => cases h

theorem State.reg_setReg_le {s : State} {d r : Reg} {v : Word} (hv : v.toNat ≤ 32767)
    (hne : (s.setReg d v).reg r ≠ s.reg r) : ((s.setReg d v).reg r).toNat ≤ 32767 := by
  have : r = d := by
    by_contra h
    exact hne (State.reg_setReg_other s h v)
  subst this
  simpa using hv

section
variable {s t : State} {i : Instr} (h : Effect s i t)
  (hops : ∀ o ∈ valueOperands i, (s.value o).toNat ≤ 32767)
include h hops

theorem Effect.reg_le (hmem : ∀ d a, i = .rmem d a → (s.word (s.value a).toNat).toNat ≤ 32767)
    (hpop : ∀ d, i = .pop d → ∀ v ∈ s.stack.head?, v.toNat ≤ 32767) {r : Reg}
    (hne : t.reg r ≠ s.reg r) : (t.reg r).toNat ≤ 32767 := by
  cases h with
  | compute _ hv => exact State.reg_setReg_le (computed_le hv hops hmem) hne
  | pop hs => exact State.reg_setReg_le (hpop _ rfl _ (by simp [hs])) hne
  | inQueued | inLine => exact State.reg_setReg_le (toNat_zext16_le _) hne
  | _ => exact absurd rfl hne

theorem Effect.word_le {a : Nat} (hne : t.word a ≠ s.word a) : (t.word a).toNat ≤ 32767 := by
  cases h with
  | @wmem addr v _ =>
    have hw := readWord_writeWord s.mem (s.value addr).toNat a (s.value v)
    by_cases heq : a = (s.value addr).toNat
    · exact (congrArg BitVec.toNat (hw.trans (if_pos heq))).trans_le
        (hops v (by simp [valueOperands]))
    · exact absurd (hw.trans (if_neg heq)) hne
  | _ => exact absurd rfl hne

theorem Effect.stack_le (hcall : ∀ a, i = .call a → s.ip + 2 ≤ 32767) {w : Word}
    (hw : w ∈ t.stack) : w ∈ s.stack ∨ w.toNat ≤ 32767 := by
  cases h with
  | @push a _ =>
    obtain rfl | hw := List.mem_cons.mp hw
    · exact .inr (hops a (by simp [valueOperands]))
    · exact .inl hw
  | @call a _ =>
    obtain rfl | hw := List.mem_cons.mp hw
    · have := hcall a rfl
      right
      rw [returnWord, BitVec.toNat_ofNat]
      omega
    · exact .inl hw
  | pop hs | ret hs => exact .inl (hs ▸ List.mem_cons_of_mem _ hw)
  | _ => exact .inl hw

end

/-- Settles O28, one lemma each for registers, memory words and the stack. -/
theorem smallWordsStaySmall : Obligations.SmallWordsStaySmall := by
  intro i s t ht hops hmem hpop hcall
  have h := exec_next_iff.mp ht
  exact ⟨fun _ => h.reg_le hops hmem hpop, fun _ => h.word_le hops, fun _ => h.stack_le hops hcall⟩

/-! ### Reset -/

/-- Settles O1: every register of the bank is the 0 it was filled with. -/
theorem resetClearsRegistersAndIp : Obligations.ResetClearsRegistersAndIp :=
  ⟨fun r => by simp [State.reg, State.reset], rfl, rfl⟩

end Sys2Proof.Machine

/-! ### Memory -/

namespace Sys2Proof.Machine

/-- Settles O4: the cells of the image are canonical and inside it, the rest is reset's. -/
theorem loadedStateMeetsInvariant : Obligations.LoadedStateMeetsInvariant :=
  fun _ _ _ hcfg hload => inv_of_load hcfg hload

/-- No end of a cycle has another `MEM_LEN` or other parameters (20_memory.md R50, 10_state.md R37). -/
theorem Effect.memLen_and_cfg {s t : State} {i : Instr} (h : Effect s i t) :
    t.memLen = s.memLen ∧ t.cfg = s.cfg := by
  cases h <;> exact ⟨rfl, rfl⟩

/-- A word of memory after a `wmem` below `MEM_LEN` (20_memory.md R54). -/
theorem Effect.word_of_wmem {s t : State} {a v : Operand} (h : Effect s (.wmem a v) t)
    (ha : (s.value a).toNat < s.memLen) (b : Nat) :
    t.word b = if b = (s.value a).toNat then s.value v else s.word b := by
  cases h with
  | wmem => exact readWord_writeWord s.mem _ b _
  | compute hd => cases hd
  | fail hf => cases hf with
    | wmem hle => exact absurd ha hle.not_gt

/-- `wmem` below `MEM_LEN` is all that writes memory (20_memory.md R52, R54). -/
theorem Effect.mem_eq_or_wmem {s t : State} {i : Instr} (h : Effect s i t) :
    t.mem = s.mem ∨ ∃ a v, i = .wmem a v ∧ (s.value a).toNat < s.memLen := by
  cases h with
  | wmem ha => exact .inr ⟨_, _, rfl, ha⟩
  | _ => exact .inl rfl

/-- Settles O21: a decode failure changes the run state alone; of the ends of a decoded instruction's
cycle only `wmem`'s has another memory. -/
theorem onlyWmemWritesMemory : Obligations.OnlyWmemWritesMemory := by
  intro s t ht
  obtain ⟨st, -, hs⟩ | ⟨k, -, -, hs⟩ | ⟨i, -, hd, hs⟩ := step_cases s
  · cases hs.symm.trans ht
  · cases hs.symm.trans ht
    exact ⟨rfl, rfl, .inl rfl⟩
  · have h := exec_next_iff.mp (hs.symm.trans ht)
    obtain ⟨hlen, hcfg⟩ := h.memLen_and_cfg
    refine ⟨hlen, hcfg, ?_⟩
    obtain hmem | ⟨a, v, rfl, ha⟩ := h.mem_eq_or_wmem
    · exact .inl hmem
    · exact .inr ⟨a, v, hd, ha, h.word_of_wmem ha⟩

/-- Place `k` of a window that fits holds the word `k` after `ip` (30_encoding.md R90). -/
theorem State.exists_fetch_getElem {s : State} {k : Nat} (hfit : s.ip + 4 ≤ s.memLen) (hk : k < 4) :
    ∃ w : Window, s.fetch = .ok w ∧
      [w.w0, w.w1, w.w2, w.w3][k]? = some (s.word (s.ip + k)) := by
  refine ⟨_, State.fetch_ok.mpr ⟨hfit, rfl⟩, ?_⟩
  interval_cases k <;> rfl

/-- Settles O29: place `A - p` of the window at `p` is word `A`, the one just written. -/
theorem writtenWordIsFetched : Obligations.WrittenWordIsFetched := by
  intro a v s ha
  obtain ⟨t, h⟩ := exists_effect (.wmem a v) s
  refine ⟨t, exec_of_effect h, fun p hle hlt hfit => ?_⟩
  obtain ⟨w, hw, hplace⟩ := State.exists_fetch_getElem (s := { t with ip := p })
    (k := (s.value a).toNat - p) hfit (by omega)
  have hword : t.word (p + ((s.value a).toNat - p)) = s.value v := by
    rw [Nat.add_sub_cancel' hle, h.word_of_wmem ha, if_pos rfl]
  exact ⟨w, hw, hplace.trans (congrArg some hword)⟩

end Sys2Proof.Machine

/-! ### Encoding

What an operand word, a shape of operands and the opcode word decode to, each said once as an `↔` with
the encoder's side. -/

namespace Sys2Proof.Machine

/-! #### Operand words -/

@[simp] theorem toNat_encodeReg (r : Reg) : (encodeReg r).toNat = 32768 + r.val := by
  rw [encodeReg, BitVec.toNat_ofNat]
  omega

theorem eq_encodeReg_iff {n : Word} {r : Reg} : n = encodeReg r ↔ n.toNat = 32768 + r.val := by
  rw [← toNat_encodeReg, BitVec.toNat_inj]

@[simp] theorem registerIndex_encodeReg (r : Reg) : registerIndex (encodeReg r) = r := by
  simp [registerIndex]

theorem encodeReg_registerIndex {n : Word} (hlo : 32768 ≤ n.toNat) (hhi : n.toNat ≤ 32775) :
    encodeReg (registerIndex n) = n := by
  rw [eq_comm, eq_encodeReg_iff, registerIndex, Fin.val_ofNat]
  omega

/-- `resolve_dest` accepts exactly the register references (30_encoding.md R88). -/
theorem decodeDest_ok {n : Word} {r : Reg} : decodeDest n = .ok r ↔ n = encodeReg r := by
  constructor
  · intro h
    unfold decodeDest at h
    split at h
    · next hn =>
      obtain rfl := Except.ok.inj h
      exact (encodeReg_registerIndex hn.1 hn.2).symm
    · cases h
  · rintro rfl
    have hr : 32768 + r.val ≤ 32775 := by omega
    simp [decodeDest, hr]

/-- `resolve_value` accepts exactly the words of well-formed operands (30_encoding.md R86, R87). -/
theorem decodeValue_ok {n : Word} {o : Operand} :
    decodeValue n = .ok o ↔ o.wf = true ∧ n = encodeOperand o := by
  constructor
  · intro h
    unfold decodeValue at h
    split at h
    · next hn =>
      cases h
      exact ⟨decide_eq_true hn, rfl⟩
    · split at h
      · next hlo hhi =>
        cases h
        exact ⟨rfl, (encodeReg_registerIndex (by omega) hhi).symm⟩
      · cases h
  · rintro ⟨ho, rfl⟩
    cases o with
    | lit m => exact if_pos (of_decide_eq_true ho)
    | reg r =>
      have hlo : ¬ 32768 + r.val ≤ 32767 := by omega
      have hhi : 32768 + r.val ≤ 32775 := by omega
      simp [decodeValue, encodeOperand, hlo, hhi]

theorem State.resolveValue_of_decodeValue {s : State} {n : Word} {o : Operand}
    (h : decodeValue n = .ok o) : s.resolveValue n = .ok (s.value o) := by
  rw [State.resolveValue, h]
  rfl

/-- Settles O14, class by class: the words of literals, the words of registers, and the rest. -/
theorem operandWordsResolveByClass : Obligations.OperandWordsResolveByClass := by
  intro s n
  refine ⟨fun h => ?_, fun r h => ?_, fun h => ?_, fun r h => ?_, fun h => ?_⟩
  · exact State.resolveValue_of_decodeValue (if_pos h)
  · have hn : n = encodeOperand (.reg r) := eq_encodeReg_iff.mpr h
    exact State.resolveValue_of_decodeValue (decodeValue_ok.mpr ⟨rfl, hn⟩)
  · rw [State.resolveValue, decodeValue, if_neg (by omega), if_neg (by omega)]
    rfl
  · exact decodeDest_ok.mpr (eq_encodeReg_iff.mpr h)
  · exact if_neg (by omega)

/-! #### Lengths -/

theorem len_eq (i : Instr) : i.len = i.operandWords.length + 1 := by
  cases i <;> rfl

@[simp] theorem length_encode (m : OpcodeMap) (i : Instr) : (encode m i).length = i.len := by
  rw [encode, List.length_cons, len_eq]

/-! #### Shapes of operands -/

theorem except_map_eq_ok {α β : Type} {r : Except FailureKind α} {f : α → β} {b : β} :
    r.map f = .ok b ↔ ∃ a, r = .ok a ∧ f a = b := by
  cases r <;> simp [Except.map]

theorem except_bind_eq_ok {α β : Type} {r : Except FailureKind α} {f : α → Except FailureKind β}
    {b : β} : (r >>= f) = .ok b ↔ ∃ a, r = .ok a ∧ f a = .ok b := by
  cases r <;> simp [bind, Except.bind]

section
variable {w : Window} {i : Instr}

theorem decodeD_ok {mk : Reg → Instr} :
    decodeD mk w = .ok i ↔ ∃ d, w.w1 = encodeReg d ∧ mk d = i := by
  simp only [decodeD, except_map_eq_ok, decodeDest_ok]

theorem decodeV_ok {mk : Operand → Instr} :
    decodeV mk w = .ok i ↔ ∃ a, (a.wf = true ∧ w.w1 = encodeOperand a) ∧ mk a = i := by
  simp only [decodeV, except_map_eq_ok, decodeValue_ok]

theorem decodeDV_ok {mk : Reg → Operand → Instr} :
    decodeDV mk w = .ok i ↔
      ∃ d, w.w1 = encodeReg d ∧ ∃ b, (b.wf = true ∧ w.w2 = encodeOperand b) ∧ mk d b = i := by
  simp only [decodeDV, except_bind_eq_ok, decodeDest_ok, decodeValue_ok, pure, Except.pure,
    Except.ok.injEq]

theorem decodeVV_ok {mk : Operand → Operand → Instr} :
    decodeVV mk w = .ok i ↔
      ∃ a, (a.wf = true ∧ w.w1 = encodeOperand a) ∧
      ∃ b, (b.wf = true ∧ w.w2 = encodeOperand b) ∧ mk a b = i := by
  simp only [decodeVV, except_bind_eq_ok, decodeValue_ok, pure, Except.pure, Except.ok.injEq]

theorem decodeDVV_ok {mk : Reg → Operand → Operand → Instr} :
    decodeDVV mk w = .ok i ↔
      ∃ d, w.w1 = encodeReg d ∧
      ∃ b, (b.wf = true ∧ w.w2 = encodeOperand b) ∧
      ∃ c, (c.wf = true ∧ w.w3 = encodeOperand c) ∧ mk d b c = i := by
  simp only [decodeDVV, except_bind_eq_ok, decodeDest_ok, decodeValue_ok, pure, Except.pure,
    Except.ok.injEq]

/-! #### Opcode and operands -/

/-- What decodes, row by row (30_encoding.md R81, R84, R94). -/
theorem decodeOpcode_ok_iff_row {m : OpcodeMap} :
    decodeOpcode m w = .ok i ↔ opcodeRow m w.w0 = i.row ∧ i.wf = true ∧
      [w.w0, w.w1, w.w2, w.w3].take i.len = w.w0 :: i.operandWords := by
  constructor
  · intro h
    unfold decodeOpcode at h
    split at h
    case h_23 => cases h
    -- each other row: the shape names the operands, and `i` is their instruction
    all_goals
      simp only [decodeD_ok, decodeV_ok, decodeDV_ok, decodeVV_ok, decodeDVV_ok,
        Except.ok.injEq] at h
      grind [Instr.row, Instr.wf, Instr.len, Instr.operandWords]
  · rintro ⟨hrow, hwf, hwords⟩
    unfold decodeOpcode
    rw [hrow]
    -- the row leaves one shape, and the window holds the operands it asks for
    cases i <;>
      simp_all [Instr.row, Instr.wf, Instr.len, Instr.operandWords, decodeD_ok, decodeV_ok,
        decodeDV_ok, decodeVV_ok, decodeDVV_ok]

/-- The decoder inverts the encoder: what decodes to `i` begins with the encoding of `i`, and nothing
else of the window matters (30_encoding.md R91, R92). A number that stands twice in the map selects
its first row only, so `i` must be reached by its own number (log 8). -/
theorem decodeOpcode_ok_iff {m : OpcodeMap} :
    decodeOpcode m w = .ok i ↔ i.wf = true ∧ opcodeRow m (i.opcode m) = i.row ∧
      [w.w0, w.w1, w.w2, w.w3].take i.len = encode m i := by
  rw [decodeOpcode_ok_iff_row, encode]
  constructor
  · rintro ⟨hrow, hwf, hwords⟩
    have hop : i.opcode m = w.w0 := getElem_opcodeRow i.row hrow
    rw [hop]
    exact ⟨hwf, hrow, hwords⟩
  · rintro ⟨hwf, hrow, hwords⟩
    have hop : w.w0 = i.opcode m := by
      rw [len_eq] at hwords
      exact (List.cons.inj hwords).1
    rw [← hop] at hrow hwords
    exact ⟨hrow, hwf, hwords⟩

/-! #### Unused words -/

theorem decodeWindow_of_decodeOpcode {cfg : Config} (h : decodeOpcode cfg.opcodes w = .ok i) :
    decodeWindow cfg w =
      if cfg.checkUnused && !valueWords (w.unused i.len) then .error .invalidOperand else .ok i := by
  simp only [decodeWindow, h]

theorem decodeWindow_ok_iff {cfg : Config} :
    decodeWindow cfg w = .ok i ↔ decodeOpcode cfg.opcodes w = .ok i ∧
      (cfg.checkUnused = true → valueWords (w.unused i.len) = true) := by
  cases h : decodeOpcode cfg.opcodes w with
  | error k => simp [decodeWindow, h]
  | ok j =>
    rw [decodeWindow_of_decodeOpcode h]
    split <;> grind

end

end Sys2Proof.Machine

/-! ### The decoder and the encoder are inverse -/

namespace Sys2Proof.Machine

@[simp] theorem wordsOfBytes_bytesOfWords (ws : List Word) : wordsOfBytes (bytesOfWords ws) = ws := by
  induction ws with
  | nil => rfl
  | cons w ws ih => simp [bytesOfWords, wordsOfBytes, ih]

/-- Four words and more are decoded as the window of the first four (30_encoding.md R90). -/
theorem exists_window_decodeWords (cfg : Config) {ws : List Word} (h : 4 ≤ ws.length) :
    ∃ w : Window, [w.w0, w.w1, w.w2, w.w3] = ws.take 4 ∧ decodeWords cfg ws = decodeWindow cfg w := by
  match ws, h with
  | w0 :: w1 :: w2 :: w3 :: _, _ => exact ⟨⟨w0, w1, w2, w3⟩, rfl, rfl⟩

/-- The first `i.len` words of the window are the encoding, the rest begins `rest`. -/
theorem decodeWords_encode_append {i : Instr} {cfg : Config} {rest : List Word}
    (hcfg : cfg.wf = true) (hwf : i.wf = true) (hlen : 4 ≤ (encode cfg.opcodes i ++ rest).length)
    (hrest : cfg.checkUnused = true → valueWords (rest.take (4 - i.len)) = true) :
    decodeWords cfg (encode cfg.opcodes i ++ rest) = .ok i := by
  obtain ⟨w, hw, hdec⟩ := exists_window_decodeWords cfg hlen
  have hused : [w.w0, w.w1, w.w2, w.w3].take i.len = encode cfg.opcodes i := by
    rw [hw, List.take_take, Nat.min_eq_left (len_le_four i), List.take_left' (length_encode ..)]
  have hunused : w.unused i.len = rest.take (4 - i.len) := by
    rw [Window.unused, hw, List.drop_take, List.drop_left' (length_encode ..)]
  rw [hdec, decodeWindow_ok_iff, decodeOpcode_ok_iff, hunused]
  exact ⟨⟨hwf, opcodeRow_of_wf hcfg i.row, hused⟩, hrest⟩

/-- Settles O7: from bytes as from words, since the bytes of the words give the words back. -/
theorem decodeOfEncodeIsIdentity : Obligations.DecodeOfEncodeIsIdentity := by
  intro i cfg rest hcfg hwf hlen hrest
  have hwords := decodeWords_encode_append hcfg hwf hlen hrest
  rw [decodeBytes, wordsOfBytes_bytesOfWords]
  exact ⟨hwords, hwords⟩

/-- Settles O8: `decodeOpcode_ok_iff` read from the decoder's side. -/
theorem decodedWindowIsAnEncoding : Obligations.DecodedWindowIsAnEncoding := by
  intro cfg w i h
  obtain ⟨hdec, hunused⟩ := decodeWindow_ok_iff.mp h
  obtain ⟨hwf, -, hwords⟩ := decodeOpcode_ok_iff.mp hdec
  exact ⟨hwf, hwords, hunused⟩

/-- An opcode's decode depends on the instruction's own words only (30_encoding.md R92). -/
theorem decodeOpcode_congr {m : OpcodeMap} {v w : Window} {i : Instr}
    (h : decodeOpcode m w = .ok i)
    (hv : [v.w0, v.w1, v.w2, v.w3].take i.len = [w.w0, w.w1, w.w2, w.w3].take i.len) :
    decodeOpcode m v = .ok i := by
  rw [decodeOpcode_ok_iff] at h ⊢
  rwa [hv]

theorem decodeWindow_unchecked_ok_iff {cfg : Config} {w : Window} {i : Instr} :
    decodeWindow { cfg with checkUnused := false } w = .ok i ↔ decodeOpcode cfg.opcodes w = .ok i := by
  simp [decodeWindow_ok_iff]

theorem valueWords_unused_iff {w : Window} {len : Nat} :
    valueWords (w.unused len) = true ↔ ∀ n ∈ [w.w0, w.w1, w.w2, w.w3].drop len, n.toNat ≤ 32775 := by
  simp only [valueWords, Window.unused, List.all_eq_true, decide_eq_true_eq]

/-- Settles O15: unchecked, a window decodes as its opcode does; checked, the unused words are looked at
after that. -/
theorem unusedWordsMatterOnlyWhenChecked : Obligations.UnusedWordsMatterOnlyWhenChecked := by
  intro cfg w i
  simp only [decodeWindow_unchecked_ok_iff]
  refine ⟨fun h v hv => decodeOpcode_congr h hv, fun h => ?_, fun h => (decodeWindow_ok_iff.mp h).1⟩
  rw [decodeWindow_of_decodeOpcode (cfg := { cfg with checkUnused := true }) h]
  simp only [Bool.true_and, ← valueWords_unused_iff]
  cases valueWords (w.unused i.len) <;> rfl

/-- Settles O9, by evaluation of the decoder. -/
theorem exampleEncodingsDecode : Obligations.ExampleEncodingsDecode :=
  ⟨rfl, rfl, rfl, rfl, rfl⟩

/-- Settles O60, by evaluation of the decoder on the 22 windows. -/
theorem defaultOpcodeMapIsTheRowOrder : Obligations.DefaultOpcodeMapIsTheRowOrder := by
  unfold Obligations.DefaultOpcodeMapIsTheRowOrder
  decide

/-! ### Decode failures -/

/-- Only an opcode word the map does not list is an unknown opcode: an operand's failure is another
(30_encoding.md R85, R87, R88). -/
theorem decodeOpcode_unknownOpcode_iff {m : OpcodeMap} {w : Window} :
    decodeOpcode m w = .error .unknownOpcode ↔ w.w0 ∉ m.toList := by
  rw [← opcodeRow_lt_iff]
  unfold decodeOpcode
  split
  case h_23 => grind
  -- each other row: the word is listed, and its shape fails with InvalidOperand only
  all_goals
    simp [decodeD_eq, decodeV_eq, decodeDV_eq, decodeVV_eq, decodeDVV_eq, ite_eq_iff, *]

theorem decodeWindow_unknownOpcode_iff {cfg : Config} {w : Window} :
    decodeWindow cfg w = .error .unknownOpcode ↔ w.w0 ∉ cfg.opcodes.toList := by
  rw [← decodeOpcode_unknownOpcode_iff]
  cases h : decodeOpcode cfg.opcodes w with
  | error k => simp [decodeWindow, h]
  | ok i =>
    rw [decodeWindow_of_decodeOpcode h]
    simp [ite_eq_iff]

theorem State.decodeNext_of_fits {s : State} (hfit : s.ip + 4 ≤ s.memLen) :
    s.decodeNext = decodeWindow s.cfg
      ⟨s.word s.ip, s.word (s.ip + 1), s.word (s.ip + 2), s.word (s.ip + 3)⟩ := by
  rw [State.decodeNext, State.fetch_ok.mpr ⟨hfit, rfl⟩]

theorem State.decodeNext_of_not_fits {s : State} (hfit : s.memLen < s.ip + 4) :
    s.decodeNext = .error .outOfBounds := by
  rw [State.decodeNext, State.fetch_error.mpr ⟨hfit, rfl⟩]

/-- A decode failure changes the run state alone (40_execution_cycle.md R124). -/
theorem step_of_decodeNext_error {s : State} {k : FailureKind} (hrun : s.run = .running)
    (h : s.decodeNext = .error k) : step s = .next (s.failed k) := by
  simp only [step, hrun, h]
  rfl

/-- No handler raises UnknownOpcode (60_exceptions.md R242). -/
theorem Effect.run_ne_unknownOpcode {s t : State} {i : Instr} (h : Effect s i t)
    (hrun : s.run = .running) : t.run ≠ .halted (.failure .unknownOpcode) := by
  cases h with
  | fail hf => cases hf <;> nofun
  | halt | inUnavailable => nofun
  | _ => exact fun ht => nomatch hrun.symm.trans ht

theorem step_unknownOpcode_iff {s : State} (hrun : s.run = .running) :
    step s = .next (s.failed .unknownOpcode) ↔ s.decodeNext = .error .unknownOpcode := by
  refine ⟨fun h => ?_, step_of_decodeNext_error hrun⟩
  obtain ⟨st, hhalt, -⟩ | ⟨k, -, hd, hs⟩ | ⟨i, -, -, hs⟩ := step_cases s
  · cases hrun.symm.trans hhalt
  · have hk : RunState.halted (.failure k) = .halted (.failure .unknownOpcode) :=
      congrArg State.run (Host.Outcome.next.inj (hs.symm.trans h))
    cases hk
    exact hd
  · exact absurd rfl ((exec_next_iff.mp (hs.symm.trans h)).run_ne_unknownOpcode hrun)

/-- Settles O12: a window that does not fit fails its decode, one that fits is fetched. -/
theorem windowIsCheckedThenRead : Obligations.WindowIsCheckedThenRead :=
  fun _ hrun => ⟨fun hfit => step_of_decodeNext_error hrun (State.decodeNext_of_not_fits hfit),
    fun hfit => State.fetch_ok.mpr ⟨hfit, rfl⟩⟩

/-- Settles O13: the step fails so exactly when the decode does, and the decode exactly when the map does
not list the opcode word. -/
theorem opcodeWordsAboveTwentyOneFail : Obligations.OpcodeWordsAboveTwentyOneFail := by
  intro s hrun hfit
  have hmap : step s = .next (s.failed .unknownOpcode) ↔ s.windowWord 0 ∉ s.cfg.opcodes.toList := by
    rw [step_unknownOpcode_iff hrun, State.decodeNext_of_fits hfit, decodeWindow_unknownOpcode_iff]
    rfl
  refine ⟨hmap, fun hdefault => ?_⟩
  rw [hmap, hdefault, mem_defaultOpcodes, not_lt]

end Sys2Proof.Machine

/-! ### The execution cycle -/

namespace Sys2Proof.Machine

/-- What a cycle does to the run state (40_execution_cycle.md R124, R125): it keeps it, or `halt` ends
the run in Success, or a handler fails after the advance, when the one IN exchange of an `in` is all
that else may have happened. -/
theorem Effect.run_cases {s t : State} {i : Instr} (h : Effect s i t) :
    (i ≠ .halt ∧ t.run = s.run) ∨ (i = .halt ∧ t.run = .halted .success) ∨
      (i ≠ .halt ∧ ∃ k, t = { s.failedAfter i.len k with hostIn := t.hostIn, inLog := t.inLog }) := by
  cases h with
  | halt => exact .inr (.inl ⟨rfl, rfl⟩)
  | fail hf => exact .inr (.inr ⟨(by rintro rfl; cases hf), _, rfl⟩)
  | inUnavailable => exact .inr (.inr ⟨nofun, _, rfl⟩)
  | compute hd => exact .inl ⟨(by rintro rfl; cases hd), rfl⟩
  | _ => exact .inl ⟨nofun, rfl⟩

/-- Settles O16: a decode failure is a next state, and every instruction's cycle has an end. -/
theorem cyclesRunOnlyInRunning : Obligations.CyclesRunOnlyInRunning := by
  intro s
  obtain ⟨st, hrun, hs⟩ | ⟨k, hrun, -, hs⟩ | ⟨i, hrun, -, hs⟩ := step_cases s
  · simp [hrun, hs]
  · simp [hrun, hs]
  · obtain ⟨t, ht⟩ := exists_effect i s
    simp [hrun, hs, exec_of_effect ht]

/-- Settles O17: in a Running state an end with a failure is the third of `Effect.run_cases`. -/
theorem failuresLeaveTheStateAlone : Obligations.FailuresLeaveTheStateAlone := by
  refine ⟨fun _ _ hrun hd => step_of_decodeNext_error hrun hd, fun i s t k hrun ht hk => ?_⟩
  obtain ⟨-, hkeep⟩ | ⟨-, hsuccess⟩ | ⟨-, k', hfail⟩ := (exec_next_iff.mp ht).run_cases
  · simp [hkeep, hrun] at hk
  · simp [hsuccess] at hk
  · rw [hfail]
    exact ⟨rfl, rfl, rfl, rfl, rfl, rfl, rfl, rfl⟩

/-- Settles O19: a decode failure ends in Failure, and of the decoded instructions only `halt` has an
end in Success. -/
theorem haltAloneEndsInSuccess : Obligations.HaltAloneEndsInSuccess := by
  intro s t ht
  obtain ⟨st, -, hs⟩ | ⟨k, -, hd, hs⟩ | ⟨i, hrun, hd, hs⟩ := step_cases s
  · cases hs.symm.trans ht
  · cases hs.symm.trans ht
    simp [hd]
  · obtain ⟨hi, hkeep⟩ | ⟨hi, hsuccess⟩ | ⟨hi, k, hfail⟩ :=
      (exec_next_iff.mp (hs.symm.trans ht)).run_cases
    · simp [hd, hi, hkeep, hrun]
    · simp [hd, hi, hsuccess]
    · rw [hfail]
      simp [hd, hi, State.failedAfter]

/-- The four words at `ip`, whether or not they fit in memory (30_encoding.md R90). -/
def State.window (s : State) : Window :=
  ⟨s.windowWord 0, s.windowWord 1, s.windowWord 2, s.windowWord 3⟩

theorem State.words_window (s : State) :
    [s.window.w0, s.window.w1, s.window.w2, s.window.w3] = (List.range 4).map s.windowWord := rfl

theorem State.decodeNext_eq_window {s : State} (hfit : s.ip + 4 ≤ s.memLen) :
    s.decodeNext = decodeWindow s.cfg s.window := State.decodeNext_of_fits hfit

/-- The words an instruction uses, one by one (30_encoding.md R81). -/
theorem State.take_window_iff {s : State} {ws : List Word} {len : Nat} (hlen : ws.length = len)
    (hle : len ≤ 4) :
    [s.window.w0, s.window.w1, s.window.w2, s.window.w3].take len = ws ↔
      ∀ k, k < len → s.windowWord k = ws.getD k 0 := by
  rw [State.words_window, ← List.map_take, List.take_range, Nat.min_eq_left hle]
  constructor
  · rintro rfl k hk
    simp [hk]
  · intro h
    refine List.ext_getElem (by simp [hlen]) fun k _ hk => ?_
    rw [← List.getD_eq_getElem _ 0 hk, ← h k (hlen ▸ hk)]
    simp

/-- The places of a window past the first `len`. -/
theorem mem_drop_range_iff {n len k : Nat} : k ∈ (List.range n).drop len ↔ k < n ∧ len ≤ k := by
  rw [List.range_eq_range', List.drop_range', List.mem_range'_1]
  omega

/-- `unusedRight` is the decoder's own check of the words past the first `len` (30_encoding.md R92). -/
theorem State.unusedRight_iff {s : State} {len : Nat} :
    s.unusedRight len = true ↔
      (s.cfg.checkUnused = true → valueWords (s.window.unused len) = true) := by
  rw [valueWords_unused_iff, State.words_window, ← List.map_drop, List.forall_mem_map]
  simp only [mem_drop_range_iff]
  simp [State.unusedRight, roleAccepts, or_iff_not_imp_left]

/-- What decodes at `ip`, word by word (30_encoding.md R90 to R92). -/
theorem State.decodeNext_ok_iff_words {s : State} {i : Instr} (hcfg : s.cfg.wf = true)
    (hfit : s.ip + 4 ≤ s.memLen) :
    s.decodeNext = .ok i ↔ i.wf = true ∧
      (∀ k, k < i.len → s.windowWord k = (encode s.cfg.opcodes i).getD k 0) ∧
      s.unusedRight i.len = true := by
  have hrow : opcodeRow s.cfg.opcodes (i.opcode s.cfg.opcodes) = i.row := opcodeRow_of_wf hcfg i.row
  rw [State.decodeNext_eq_window hfit, decodeWindow_ok_iff, decodeOpcode_ok_iff,
    State.take_window_iff (length_encode ..) (len_le_four i), ← State.unusedRight_iff, and_assoc,
    and_assoc, and_iff_right hrow]

/-- A decoded instruction is run (40_execution_cycle.md R121). -/
theorem step_of_decodeNext_ok {s : State} {i : Instr} (hrun : s.run = .running)
    (h : s.decodeNext = .ok i) : step s = exec i s := by
  simp only [step, hrun, h]

/-- Settles O10: the words at `ip` decode to the instruction. -/
theorem stepRunsTheDecodedInstruction : Obligations.StepRunsTheDecodedInstruction :=
  fun _ _ hrun hcfg hwf hfit hwords hunused => step_of_decodeNext_ok hrun
    ((State.decodeNext_ok_iff_words hcfg hfit).mpr ⟨hwf, hwords, hunused⟩)

end Sys2Proof.Machine

/-! ### The rule of one instruction -/

namespace Sys2Proof.Machine

/-- The unused words are wrong exactly where the decoder's own check rejects them (30_encoding.md R92). -/
theorem State.not_unusedRight (s : State) (len : Nat) :
    (!s.unusedRight len) = (s.cfg.checkUnused && !valueWords (s.window.unused len)) := by
  rw [Bool.eq_iff_iff, Bool.not_eq_true', ← Bool.not_eq_true, State.unusedRight_iff]
  simp

/-- Where the decode of the opcode's row asks of the operand words what their roles ask, the decode at
`ip` asks that and then the unused words (30_encoding.md R91, R94). -/
theorem State.decodeNext_of_roles {s : State} {i : Instr} {roles : List Role}
    (hfit : s.ip + 4 ≤ s.memLen) (hlen : i.len = roles.length + 1)
    (hdec : decodeOpcode s.cfg.opcodes s.window =
      if s.operandsRight 1 roles then .ok i else .error .invalidOperand) :
    s.decodeNext = if s.operandsRight 1 roles && s.unusedRight (roles.length + 1) then .ok i
      else .error .invalidOperand := by
  rw [State.decodeNext_eq_window hfit]
  cases hroles : s.operandsRight 1 roles with
  | false => simp [decodeWindow, hdec, hroles]
  | true =>
    have hok : decodeOpcode s.cfg.opcodes s.window = .ok i := by simp [hdec, hroles]
    rw [decodeWindow_of_decodeOpcode hok, hlen, ← State.not_unusedRight]
    cases s.unusedRight (roles.length + 1) <;> rfl

theorem toNat_defaultOpcodes (row : Fin 22) : (defaultOpcodes[row]).toNat = row := by
  revert row
  decide

/-- An instruction has its rule when its row decodes, by the roles of the operand words, to the
instruction `instr` reads in the window, and running that instruction has the rule's effect. -/
theorem instructionRule_of_decodeOpcode {row : Fin 22} {roles : List Role} {effect : State → Prop}
    (instr : State → Instr) (hlen : ∀ s, (instr s).len = roles.length + 1)
    (hdec : ∀ s : State, opcodeRow s.cfg.opcodes s.window.w0 = row →
      decodeOpcode s.cfg.opcodes s.window =
        if s.operandsRight 1 roles then .ok (instr s) else .error .invalidOperand)
    (heffect : ∀ s : State, s.ip + 4 ≤ s.memLen → step s = exec (instr s) s → effect s) :
    InstructionRule row roles effect := by
  refine ⟨toNat_defaultOpcodes row, fun s hrun hcfg hop => ?_⟩
  have hrow : opcodeRow s.cfg.opcodes s.window.w0 = row := by
    rw [show s.window.w0 = s.cfg.opcodes[row] from hop, opcodeRow_of_wf hcfg row]
  refine ⟨(windowIsCheckedThenRead s hrun).1, fun hfit hwrong => ?_, fun hfit hright => ?_⟩
  · refine step_of_decodeNext_error hrun ?_
    rw [State.decodeNext_of_roles hfit (hlen s) (hdec s hrow), hwrong]
    rfl
  · refine heffect s hfit (step_of_decodeNext_ok hrun ?_)
    rw [State.decodeNext_of_roles hfit (hlen s) (hdec s hrow), hright]
    rfl

theorem decodeOpcode_of_no_operands {m : OpcodeMap} {w : Window} {i : Instr} (hwf : i.wf = true)
    (hops : i.operandWords = []) (hrow : opcodeRow m w.w0 = i.row) : decodeOpcode m w = .ok i := by
  rw [decodeOpcode_ok_iff_row, len_eq, hops]
  exact ⟨hrow, hwf, rfl⟩

/-- An instruction without operands has the rule whose effect running it has. -/
theorem instructionRule_of_no_operands {i : Instr} {effect : State → Prop} (hwf : i.wf = true)
    (hops : i.operandWords = [])
    (heffect : ∀ s : State, s.ip + 4 ≤ s.memLen → step s = exec i s → effect s) :
    InstructionRule i.row [] effect :=
  instructionRule_of_decodeOpcode (fun _ => i) (fun _ => by rw [len_eq, hops]; rfl)
    (fun _ hrow => decodeOpcode_of_no_operands hwf hops hrow) heffect

end Sys2Proof.Machine

/-! ### Machine control -/

namespace Sys2Proof.Machine

/-- The end of `halt` (41_machine_control.md R140). -/
theorem exec_halt (s : State) :
    exec .halt s = .next { s with ip := s.ip + 1, run := .halted .success } :=
  exec_of_effect .halt

/-- The end of `noop` (41_machine_control.md R141). -/
theorem exec_noop (s : State) : exec .noop s = .next { s with ip := s.ip + 1 } :=
  exec_of_effect .noop

/-- Settles O36: neither instruction has an operand word to reject, so its row alone decodes to it. -/
theorem haltAndNoopRules : Obligations.HaltAndNoopRules :=
  ⟨instructionRule_of_no_operands (i := .halt) rfl rfl fun s _ hstep => hstep.trans (exec_halt s),
    instructionRule_of_no_operands (i := .noop) rfl rfl fun s _ hstep => hstep.trans (exec_noop s)⟩

/-- Settles O53: the three ends in `Effect` that ask nothing of the state; the byte `out` sends is its
value's low byte (48_io.md R220). -/
theorem haltNoopAndOutComplete : Obligations.HaltNoopAndOutComplete :=
  fun c s => ⟨exec_halt s, exec_noop s, _, _, exec_of_effect .out, rfl, toNat_lowByte (s.value c),
    rfl, rfl⟩

end Sys2Proof.Machine

/-! ### What the computing instructions write

The number each result stands for, and the end of a cycle that computes a word. -/

namespace Sys2Proof.Machine

theorem toNat_boolWord (b : Bool) : (boolWord b).toNat = if b then 1 else 0 := by
  cases b <;> rfl

theorem toNat_eqWord (a b : Word) : (eqWord a b).toNat = if a.toNat = b.toNat then 1 else 0 := by
  simp only [eqWord, toNat_boolWord, decide_eq_true_eq, BitVec.toNat_inj]

theorem toNat_gtWord (a b : Word) : (gtWord a b).toNat = if a.toNat > b.toNat then 1 else 0 := by
  simp only [gtWord, toNat_boolWord, decide_eq_true_eq, gt_iff_lt]

/-- A number below 32768 is a word. -/
theorem toNat_ofNat_mod_32768 (n : Nat) : (BitVec.ofNat 16 (n % 32768)).toNat = n % 32768 := by
  rw [BitVec.toNat_ofNat]
  omega

theorem toNat_aluAdd (a b : Word) : (aluAdd a b).toNat = (a.toNat + b.toNat) % 32768 :=
  toNat_ofNat_mod_32768 _

theorem toNat_aluMult (a b : Word) : (aluMult a b).toNat = (a.toNat * b.toNat) % 32768 :=
  toNat_ofNat_mod_32768 _

/-- A remainder of words is a word, so nothing of it is lost (45_alu.md R182). -/
theorem toNat_aluMod {a b v : Word} (h : aluMod a b = .ok v) : v.toNat = a.toNat % b.toNat := by
  obtain ⟨-, rfl⟩ := aluMod_ok.mp h
  rw [BitVec.toNat_ofNat]
  exact Nat.mod_eq_of_lt ((Nat.mod_le _ _).trans_lt a.isLt)

theorem toNat_aluAnd (a b : Word) : (aluAnd a b).toNat = a.toNat &&& b.toNat :=
  BitVec.toNat_and a b

theorem toNat_aluOr (a b : Word) : (aluOr a b).toNat = a.toNat ||| b.toNat :=
  BitVec.toNat_or a b

/-- The complement of the low 15 bits is what they lack of all ones (45_alu.md R185). -/
theorem toNat_aluNot (a : Word) : (aluNot a).toNat = 0x7FFF - (a.toNat &&& 0x7FFF) := by
  have hmask : ∀ n : Nat, n &&& 0x7FFF = n % 32768 := fun n => Nat.and_two_pow_sub_one_eq_mod n 15
  have := a.isLt
  rw [aluNot, BitVec.toNat_and, BitVec.toNat_not, show (0x7FFF : Word).toNat = 0x7FFF from rfl,
    hmask, hmask]
  omega

/-- Writing a register and advancing `ip` changes nothing else. -/
theorem onlyRegister_advance_setReg (s : State) (n : Nat) (d : Reg) (v : Word) :
    OnlyRegister d s ((s.advance n).setReg d v) :=
  ⟨rfl, fun _ hr => State.reg_setReg_other _ hr v⟩

/-- The cycle of an instruction that computes a word: the word goes to the destination, `ip` advances
and nothing else changes. -/
theorem exists_exec_of_computed {s : State} {i : Instr} {d : Reg} {v : Word}
    (hd : destination i = some d) (hv : computed s i = some v) :
    ∃ t, exec i s = .next t ∧ t.reg d = v ∧ t.ip = s.ip + i.len ∧ OnlyRegister d s t :=
  ⟨_, exec_of_computed hd hv, State.reg_setReg_same _ d v, rfl,
    onlyRegister_advance_setReg s i.len d v⟩

/-- The same, with the number the word stands for. -/
theorem exists_exec_of_toNat_computed {s : State} {i : Instr} {d : Reg} {v : Word} {n : Nat}
    (hd : destination i = some d) (hv : computed s i = some v) (hn : v.toNat = n) :
    ∃ t, exec i s = .next t ∧ (t.reg d).toNat = n ∧ t.ip = s.ip + i.len ∧ OnlyRegister d s t := by
  obtain ⟨t, ht, rfl, hframe⟩ := exists_exec_of_computed hd hv
  exact ⟨t, ht, hn, hframe⟩

/-- Settles O54: each of the nine computes its word, `mod` because its divisor is not 0. -/
theorem registerInstructionsComplete : Obligations.RegisterInstructionsComplete := by
  intro d a b s
  refine ⟨exists_exec_of_computed (i := .set d a) rfl rfl,
    exists_exec_of_toNat_computed (i := .eq d a b) rfl rfl (toNat_eqWord _ _),
    exists_exec_of_toNat_computed (i := .gt d a b) rfl rfl (toNat_gtWord _ _),
    exists_exec_of_toNat_computed (i := .add d a b) rfl rfl (toNat_aluAdd _ _),
    exists_exec_of_toNat_computed (i := .mult d a b) rfl rfl (toNat_aluMult _ _),
    fun hb => ?_,
    exists_exec_of_toNat_computed (i := .and d a b) rfl rfl (toNat_aluAnd _ _),
    exists_exec_of_toNat_computed (i := .or d a b) rfl rfl (toNat_aluOr _ _),
    exists_exec_of_toNat_computed (i := .not d a) rfl rfl (toNat_aluNot _)⟩
  have hmod := aluMod_ok (a := s.value a).mpr ⟨hb, rfl⟩
  exact exists_exec_of_toNat_computed (i := .mod d a b) rfl (except_toOption_eq_some.mpr hmod)
    (toNat_aluMod hmod)

end Sys2Proof.Machine

/-! ### Register move and stack -/

namespace Sys2Proof.Machine

/-! #### The stack instructions, where they succeed and where they fail -/

/-- There is room for one more word (10_state.md R31). -/
theorem State.stackFull_eq_false_iff {s : State} :
    s.stackFull = false ↔ ∀ n, s.cfg.stackDepth = some n → s.stack.length < n := by
  rw [← Bool.not_eq_true, State.stackFull_iff]
  simp

/-- The end of `push` on a stack with room (42_register_stack.md R151). -/
theorem exec_push {s : State} (a : Operand)
    (hroom : ∀ n, s.cfg.stackDepth = some n → s.stack.length < n) :
    exec (.push a) s = .next { s with ip := s.ip + 2, stack := s.value a :: s.stack } :=
  exec_of_effect (.push (State.stackFull_eq_false_iff.mpr hroom))

theorem exec_push_full {s : State} (a : Operand)
    (hfull : ∃ n, s.cfg.stackDepth = some n ∧ n ≤ s.stack.length) :
    exec (.push a) s = .next (s.failedAfter 2 .stackOverflow) :=
  exec_of_handlerFails (.push (State.stackFull_iff.mpr hfull))

/-- The end of `pop` where there is a word to pop (42_register_stack.md R152). -/
theorem exec_pop {s : State} (d : Reg) {v : Word} {rest : List Word} (hs : s.stack = v :: rest) :
    exec (.pop d) s = .next ({ s with ip := s.ip + 2, stack := rest }.setReg d v) :=
  exec_of_effect (.pop hs)

theorem exec_pop_empty {s : State} (d : Reg) (hs : s.stack = []) :
    exec (.pop d) s = .next (s.failedAfter 2 .emptyStack) :=
  exec_of_handlerFails (.pop hs)

/-- `pop` changes its register, the stack and `ip` (42_register_stack.md R152). -/
theorem exists_exec_pop {s : State} (d : Reg) {v : Word} {rest : List Word}
    (hs : s.stack = v :: rest) :
    ∃ t, exec (.pop d) s = .next t ∧ t.reg d = v ∧ t.stack = rest ∧ t.ip = s.ip + 2 ∧
      OnlyRegisterAndStack d s t :=
  ⟨_, exec_pop d hs, State.reg_setReg_same _ d v, rfl, rfl, rfl,
    fun _ hr => State.reg_setReg_other _ hr v⟩

/-- The return address is pushed whole where it fits in a word (47_call_return.md R210). -/
theorem toNat_returnWord {n : Nat} (h : n ≤ 65535) : (returnWord n).toNat = n := by
  rw [returnWord, BitVec.toNat_ofNat]
  omega

/-- `call` on a stack with room, its return address one that fits in a word (47_call_return.md R210). -/
theorem exists_exec_call {s : State} (a : Operand) (hip : s.ip + 2 ≤ 65535)
    (hroom : ∀ n, s.cfg.stackDepth = some n → s.stack.length < n) :
    ∃ t v, exec (.call a) s = .next t ∧ t.stack = v :: s.stack ∧ v.toNat = s.ip + 2 ∧
      t.ip = (s.value a).toNat ∧ OnlyStack s t :=
  ⟨_, _, exec_of_effect (.call (State.stackFull_eq_false_iff.mpr hroom)), rfl,
    toNat_returnWord hip, rfl, rfl⟩

/-- The end of `ret` where there is a word to return to (47_call_return.md R211). -/
theorem exec_ret {s : State} {v : Word} {rest : List Word} (hs : s.stack = v :: rest) :
    exec .ret s = .next { s with ip := v.toNat, stack := rest } :=
  exec_of_effect (.ret hs)

/-- Settles O56, instruction by instruction. -/
theorem stackInstructionsComplete : Obligations.StackInstructionsComplete :=
  fun d a _ => ⟨exec_push a, exists_exec_call a,
    fun _ _ hs => ⟨exists_exec_pop d hs, exec_ret hs⟩⟩

/-! #### The LIFO law -/

theorem execAll_cons {i : Instr} {is : List Instr} {s t : State} (h : exec i s = .next t) :
    execAll (i :: is) s = execAll is t := by
  simp only [execAll, h]

/-- An operand's value depends on the registers alone (30_encoding.md R87). -/
theorem State.value_congr {s t : State} (h : t.regs = s.regs) (o : Operand) :
    t.value o = s.value o := by
  cases o with
  | lit n => rfl
  | reg r => simp only [State.value_reg, State.reg, h]

/-- Two pushes leave the two values on the stack, the second on top. -/
theorem execAll_push_push {s : State} (a b : Operand) (is : List Instr)
    (hroom : ∀ n, s.cfg.stackDepth = some n → s.stack.length + 2 ≤ n) :
    execAll (.push a :: .push b :: is) s =
      execAll is { s with ip := s.ip + 4, stack := s.value b :: s.value a :: s.stack } := by
  have hfirst : ∀ n, s.cfg.stackDepth = some n → s.stack.length < n := fun n hn => by
    have := hroom n hn
    omega
  have hvalue : State.value { s with ip := s.ip + 2, stack := s.value a :: s.stack } b =
      s.value b := State.value_congr rfl b
  rw [execAll_cons (exec_push a hfirst), execAll_cons (exec_push b hroom), hvalue]

/-- Two pops take the two top words, the first one from the top. -/
theorem execAll_pop_pop {s : State} (d e : Reg) (is : List Instr) {v w : Word} {rest : List Word}
    (hs : s.stack = v :: w :: rest) :
    execAll (.pop d :: .pop e :: is) s =
      execAll is (({ s with ip := s.ip + 4, stack := rest }.setReg d v).setReg e w) := by
  rw [execAll_cons (exec_pop d hs), execAll_cons (exec_pop e rfl)]
  rfl

/-- Settles O31: the pops meet the words of the pushes, the second word on top. -/
theorem lastPushedIsFirstPopped : Obligations.LastPushedIsFirstPopped := by
  intro a b d e f s hde hroom
  refine ⟨_, (execAll_push_push a b _ hroom).trans (execAll_pop_pop d e [] rfl), ?_,
    State.reg_setReg_same _ e _, rfl, fun hs => exec_pop_empty f hs⟩
  rw [State.reg_setReg_other _ hde, State.reg_setReg_same]

end Sys2Proof.Machine

/-! ### The rules of register move and stack -/

namespace Sys2Proof.Machine

/-! #### The shapes of operands

An instruction has its rule when its row decodes by a shape of operands and running the instruction
that the window words name has the rule's effect. -/

section
variable {row : Fin 22} {effect : State → Prop}

theorem instructionRule_of_decodeD {mk : Reg → Instr} (hlen : ∀ d, (mk d).len = 2)
    (hdec : ∀ m w, opcodeRow m w.w0 = row → decodeOpcode m w = decodeD mk w)
    (heffect : ∀ s : State, s.ip + 4 ≤ s.memLen → step s = exec (mk (s.destAt 1)) s → effect s) :
    InstructionRule row [.dest] effect := by
  refine instructionRule_of_decodeOpcode (fun s => mk (s.destAt 1)) (fun _ => hlen _)
    (fun s hrow => ?_) heffect
  rw [hdec _ _ hrow, decodeD_eq, State.operandsRight, State.operandsRight, Bool.and_true]
  rfl

theorem instructionRule_of_decodeV {mk : Operand → Instr} (hlen : ∀ a, (mk a).len = 2)
    (hdec : ∀ m w, opcodeRow m w.w0 = row → decodeOpcode m w = decodeV mk w)
    (heffect : ∀ s : State, s.ip + 4 ≤ s.memLen →
      step s = exec (mk (operandOf (s.windowWord 1))) s → effect s) :
    InstructionRule row [.value] effect := by
  refine instructionRule_of_decodeOpcode (fun s => mk (operandOf (s.windowWord 1)))
    (fun _ => hlen _) (fun s hrow => ?_) heffect
  rw [hdec _ _ hrow, decodeV_eq, State.operandsRight, State.operandsRight, Bool.and_true]
  rfl

theorem instructionRule_of_decodeDV {mk : Reg → Operand → Instr} (hlen : ∀ d a, (mk d a).len = 3)
    (hdec : ∀ m w, opcodeRow m w.w0 = row → decodeOpcode m w = decodeDV mk w)
    (heffect : ∀ s : State, s.ip + 4 ≤ s.memLen →
      step s = exec (mk (s.destAt 1) (operandOf (s.windowWord 2))) s → effect s) :
    InstructionRule row [.dest, .value] effect := by
  refine instructionRule_of_decodeOpcode (fun s => mk (s.destAt 1) (operandOf (s.windowWord 2)))
    (fun _ => hlen _ _) (fun s hrow => ?_) heffect
  rw [hdec _ _ hrow, decodeDV_eq, State.operandsRight, State.operandsRight, State.operandsRight,
    Bool.and_true]
  rfl

end

/-! #### The three rules -/

/-- Settles O37: `set` computes the value its operand word names. -/
theorem setRule : Obligations.SetRule :=
  instructionRule_of_decodeDV (fun _ _ => rfl) (fun _ _ hrow => by rw [decodeOpcode, hrow]; rfl)
    fun s _ hstep => hstep ▸ exists_exec_of_toNat_computed rfl rfl (s.value_operandOf 2)

/-- Settles O38: `push` fails on a full stack and pushes on one with room. -/
theorem pushRule : Obligations.PushRule :=
  instructionRule_of_decodeV (fun _ => rfl) (fun _ _ hrow => by rw [decodeOpcode, hrow]; rfl)
    fun s _ hstep => ⟨fun hfull => hstep.trans (exec_push_full _ hfull),
      fun hroom => ⟨_, _, hstep.trans (exec_push _ hroom), rfl, s.value_operandOf 1, rfl, rfl⟩⟩

/-- Settles O39: `pop` fails on an empty stack and pops from another. -/
theorem popRule : Obligations.PopRule :=
  instructionRule_of_decodeD (fun _ => rfl) (fun _ _ hrow => by rw [decodeOpcode, hrow]; rfl)
    fun _ _ hstep => ⟨fun hs => hstep.trans (exec_pop_empty _ hs),
      fun _ _ hs => hstep ▸ exists_exec_pop _ hs⟩

end Sys2Proof.Machine

/-! ### The rules of comparison -/

namespace Sys2Proof.Machine

/-! #### A destination and two values -/

section
variable {row : Fin 22} {mk : Reg → Operand → Operand → Instr}

theorem instructionRule_of_decodeDVV {effect : State → Prop} (hlen : ∀ d a b, (mk d a b).len = 4)
    (hdec : ∀ m w, opcodeRow m w.w0 = row → decodeOpcode m w = decodeDVV mk w)
    (heffect : ∀ s : State, s.ip + 4 ≤ s.memLen →
      step s = exec (mk (s.destAt 1) (operandOf (s.windowWord 2)) (operandOf (s.windowWord 3))) s →
      effect s) :
    InstructionRule row [.dest, .value, .value] effect := by
  refine instructionRule_of_decodeOpcode
    (fun s => mk (s.destAt 1) (operandOf (s.windowWord 2)) (operandOf (s.windowWord 3)))
    (fun _ => hlen _ _ _) (fun s hrow => ?_) heffect
  rw [hdec _ _ hrow, decodeDVV_eq]
  simp only [State.operandsRight, Bool.and_true]
  rfl

/-- The rule of an instruction that computes the word `op` of its two values, where `op` stands for
the operation `f` on their numbers: `f` of the two words' values goes to the register. -/
theorem instructionRule_of_binary {op : Word → Word → Word} {f : Nat → Nat → Nat}
    (hlen : ∀ d a b, (mk d a b).len = 4)
    (hdec : ∀ m w, opcodeRow m w.w0 = row → decodeOpcode m w = decodeDVV mk w)
    (hdest : ∀ d a b, destination (mk d a b) = some d)
    (hcomp : ∀ s d a b, computed s (mk d a b) = some (op (s.value a) (s.value b)))
    (hop : ∀ v w, (op v w).toNat = f v.toNat w.toNat) :
    InstructionRule row [.dest, .value, .value] fun s => ∃ t, step s = .next t ∧
      (t.reg (s.destAt 1)).toNat = f (s.valueAt 2) (s.valueAt 3) ∧
      t.ip = s.ip + 4 ∧ OnlyRegister (s.destAt 1) s t := by
  refine instructionRule_of_decodeDVV hlen hdec fun s _ hstep => ?_
  rw [hstep, ← hlen, ← s.value_operandOf 2, ← s.value_operandOf 3]
  exact exists_exec_of_toNat_computed (hdest ..) (hcomp ..) (hop ..)

end

/-! #### The two rules -/

/-- Settles O40: `eq` and `gt` compute the comparison of the numbers their two words name. -/
theorem eqAndGtRules : Obligations.EqAndGtRules :=
  ⟨instructionRule_of_binary (mk := .eq) (f := fun m n => if m = n then 1 else 0)
      (fun _ _ _ => rfl) (fun _ _ hrow => by rw [decodeOpcode, hrow]; rfl) (fun _ _ _ => rfl)
      (fun _ _ _ _ => rfl) toNat_eqWord,
    instructionRule_of_binary (mk := .gt) (f := fun m n => if m > n then 1 else 0)
      (fun _ _ _ => rfl) (fun _ _ hrow => by rw [decodeOpcode, hrow]; rfl) (fun _ _ _ => rfl)
      (fun _ _ _ _ => rfl) toNat_gtWord⟩

end Sys2Proof.Machine

/-! ### Jumps -/

namespace Sys2Proof.Machine

/-- Zero alone counts as false (44_jumps.md R171). -/
theorem truth_iff {w : Word} : truth w = true ↔ w.toNat ≠ 0 := by
  simp [truth, ← BitVec.toNat_inj]

theorem truth_eq_false_iff {w : Word} : truth w = false ↔ w.toNat = 0 := by
  rw [← Bool.not_eq_true, truth_iff, not_not]

section
variable (c t : Operand) (s : State)

/-- The end of `jmp` (44_jumps.md R170). -/
theorem exec_jmp : exec (.jmp t) s = .next { s with ip := (s.value t).toNat } :=
  exec_of_effect .jmp

/-- The end of `jt` (44_jumps.md R171). -/
theorem exec_jt :
    exec (.jt c t) s = .next
      { s with ip := if (s.value c).toNat ≠ 0 then (s.value t).toNat else s.ip + 3 } := by
  by_cases hc : (s.value c).toNat = 0
  · rw [if_neg (not_not.mpr hc)]
    exact exec_of_effect (.jtPassed (truth_eq_false_iff.mpr hc))
  · rw [if_pos hc]
    exact exec_of_effect (.jtTaken (truth_iff.mpr hc))

/-- The end of `jf` (44_jumps.md R172). -/
theorem exec_jf :
    exec (.jf c t) s = .next
      { s with ip := if (s.value c).toNat = 0 then (s.value t).toNat else s.ip + 3 } := by
  by_cases hc : (s.value c).toNat = 0
  · rw [if_pos hc]
    exact exec_of_effect (.jfTaken (truth_eq_false_iff.mpr hc))
  · rw [if_neg hc]
    exact exec_of_effect (.jfPassed (truth_iff.mpr hc))

end

/-- Settles O55, jump by jump. -/
theorem jumpsComplete : Obligations.JumpsComplete :=
  fun c t s => ⟨exec_jmp t s, exec_jt c t s, exec_jf c t s⟩

/-- Settles O32: on a condition of 0 `jf` jumps and `jt` does not, on any other the reverse. -/
theorem exactlyOneOfJtAndJfJumps : Obligations.ExactlyOneOfJtAndJfJumps := by
  intro c t s
  refine ⟨_, _, exec_jt c t s, exec_jf c t s, ?_⟩
  by_cases hc : (s.value c).toNat = 0
  · right
    simp [hc]
  · left
    simp [hc]

/-! #### The rules -/

/-- The shape of two values: `instructionRule_of_decodeV` with one operand more. -/
theorem instructionRule_of_decodeVV {row : Fin 22} {effect : State → Prop}
    {mk : Operand → Operand → Instr} (hlen : ∀ a b, (mk a b).len = 3)
    (hdec : ∀ m w, opcodeRow m w.w0 = row → decodeOpcode m w = decodeVV mk w)
    (heffect : ∀ s : State, s.ip + 4 ≤ s.memLen →
      step s = exec (mk (operandOf (s.windowWord 1)) (operandOf (s.windowWord 2))) s → effect s) :
    InstructionRule row [.value, .value] effect := by
  refine instructionRule_of_decodeOpcode
    (fun s => mk (operandOf (s.windowWord 1)) (operandOf (s.windowWord 2)))
    (fun _ => hlen _ _) (fun s hrow => ?_) heffect
  rw [hdec _ _ hrow, decodeVV_eq]
  simp only [State.operandsRight, Bool.and_true]
  rfl

/-- Settles O41: `jmp` sets `ip` to the value its operand word names. -/
theorem jmpRule : Obligations.JmpRule :=
  instructionRule_of_decodeV (fun _ => rfl) (fun _ _ hrow => by rw [decodeOpcode, hrow]; rfl)
    fun s _ hstep => by rw [hstep, exec_jmp, s.value_operandOf 1]

/-- Settles O42: the condition and the target are the values the two operand words name. -/
theorem jtAndJfRules : Obligations.JtAndJfRules :=
  ⟨instructionRule_of_decodeVV (fun _ _ => rfl) (fun _ _ hrow => by rw [decodeOpcode, hrow]; rfl)
      fun s _ hstep => by rw [hstep, exec_jt, s.value_operandOf 1, s.value_operandOf 2],
    instructionRule_of_decodeVV (fun _ _ => rfl) (fun _ _ hrow => by rw [decodeOpcode, hrow]; rfl)
      fun s _ hstep => by rw [hstep, exec_jf, s.value_operandOf 1, s.value_operandOf 2]⟩

end Sys2Proof.Machine

/-! ### Arithmetic and logic -/

namespace Sys2Proof.Machine

/-! #### `mod`, where it divides and where it fails -/

theorem exec_mod_by_zero {s : State} (d : Reg) (a : Operand) {b : Operand}
    (hb : (s.value b).toNat = 0) :
    exec (.mod d a b) s = .next (s.failedAfter 4 .divisionByZero) :=
  exec_of_handlerFails (.mod (BitVec.eq_of_toNat_eq hb))

/-- The end of `mod` with a divisor other than 0 (45_alu.md R182). -/
theorem exists_exec_mod {s : State} (d : Reg) (a : Operand) {b : Operand}
    (hb : (s.value b).toNat ≠ 0) :
    ∃ t, exec (.mod d a b) s = .next t ∧
      (t.reg d).toNat = (s.value a).toNat % (s.value b).toNat ∧
      t.ip = s.ip + 4 ∧ OnlyRegister d s t := by
  have hmod := aluMod_ok (a := s.value a).mpr ⟨fun h => hb (congrArg BitVec.toNat h), rfl⟩
  exact exists_exec_of_toNat_computed rfl (except_toOption_eq_some.mpr hmod) (toNat_aluMod hmod)

/-! #### `not` twice -/

/-- On a value of 15 bits the mask of R185's second form does nothing. -/
theorem toNat_aluNot_of_le {v : Word} (hv : v.toNat ≤ 32767) :
    (aluNot v).toNat = 32767 - v.toNat := by
  rw [toNat_aluNot, Nat.and_two_pow_sub_one_of_lt_two_pow (n := 15) (Nat.lt_succ_of_le hv)]

/-- 45_alu.md R185's property: a value of 15 bits is its complement's complement. -/
theorem aluNot_aluNot {v : Word} (hv : v.toNat ≤ 32767) : aluNot (aluNot v) = v := by
  refine BitVec.eq_of_toNat_eq ?_
  rw [toNat_aluNot_of_le (toNat_aluNot_le v), toNat_aluNot_of_le hv, Nat.sub_sub_self hv]

/-- The end of `not` (45_alu.md R185). -/
theorem exec_not (d : Reg) (a : Operand) (s : State) :
    exec (.not d a) s = .next ((s.advance 3).setReg d (aluNot (s.value a))) :=
  exec_of_computed rfl rfl

/-- Settles O33: the second `not` reads the complement the first one wrote, so `aluNot` is applied
twice. -/
theorem notTwiceGivesTheValueBack : Obligations.NotTwiceGivesTheValueBack := by
  intro a d e s hv
  refine ⟨_, (execAll_cons (exec_not d a s)).trans (execAll_cons (exec_not e (.reg d) _)), ?_⟩
  rw [State.reg_setReg_same, State.value_reg, State.reg_setReg_same, aluNot_aluNot hv]

/-! #### The rules -/

/-- Settles O43: `add` and `mult` compute the sum and the product mod 32768 of the numbers their two
words name. -/
theorem addAndMultRules : Obligations.AddAndMultRules :=
  ⟨instructionRule_of_binary (mk := .add) (f := fun m n => (m + n) % 32768)
      (fun _ _ _ => rfl) (fun _ _ hrow => by rw [decodeOpcode, hrow]; rfl) (fun _ _ _ => rfl)
      (fun _ _ _ _ => rfl) toNat_aluAdd,
    instructionRule_of_binary (mk := .mult) (f := fun m n => (m * n) % 32768)
      (fun _ _ _ => rfl) (fun _ _ hrow => by rw [decodeOpcode, hrow]; rfl) (fun _ _ _ => rfl)
      (fun _ _ _ _ => rfl) toNat_aluMult⟩

/-- Settles O44: `mod` fails where its third word names 0 and divides where it names another
number. -/
theorem modRule : Obligations.ModRule := by
  refine instructionRule_of_decodeDVV (mk := .mod) (fun _ _ _ => rfl)
    (fun _ _ hrow => by rw [decodeOpcode, hrow]; rfl) fun s _ hstep => ?_
  rw [hstep, ← s.value_operandOf 2, ← s.value_operandOf 3]
  exact ⟨exec_mod_by_zero _ _, exists_exec_mod _ _⟩

/-- Settles O45: `and` and `or` compute the conjunction and the disjunction of the numbers their two
words name. -/
theorem andAndOrRules : Obligations.AndAndOrRules :=
  ⟨instructionRule_of_binary (mk := .and) (f := (· &&& ·))
      (fun _ _ _ => rfl) (fun _ _ hrow => by rw [decodeOpcode, hrow]; rfl) (fun _ _ _ => rfl)
      (fun _ _ _ _ => rfl) toNat_aluAnd,
    instructionRule_of_binary (mk := .or) (f := (· ||| ·))
      (fun _ _ _ => rfl) (fun _ _ hrow => by rw [decodeOpcode, hrow]; rfl) (fun _ _ _ => rfl)
      (fun _ _ _ _ => rfl) toNat_aluOr⟩

/-- Settles O46: `not` computes the complement of the number its second word names. -/
theorem notRule : Obligations.NotRule := by
  refine instructionRule_of_decodeDV (mk := .not) (fun _ _ => rfl)
    (fun _ _ hrow => by rw [decodeOpcode, hrow]; rfl) fun s _ hstep => ?_
  rw [hstep, ← s.value_operandOf 2]
  exact exists_exec_of_toNat_computed rfl rfl (toNat_aluNot _)

end Sys2Proof.Machine

/-! ### Memory access -/

namespace Sys2Proof.Machine

section
variable {s : State} {a : Operand}

/-- The cycle of `rmem` below `MEM_LEN` (46_memory_access.md R200): the word is copied raw. -/
theorem exists_exec_rmem (d : Reg) (ha : (s.value a).toNat < s.memLen) :
    ∃ t, exec (.rmem d a) s = .next t ∧ t.reg d = s.word (s.value a).toNat ∧ t.ip = s.ip + 3 ∧
      OnlyRegister d s t :=
  exists_exec_of_computed rfl (except_toOption_eq_some.mpr (State.memRead_ok.mpr ⟨ha, rfl⟩))

theorem exec_rmem_outOfBounds (d : Reg) (ha : s.memLen ≤ (s.value a).toNat) :
    exec (.rmem d a) s = .next (s.failedAfter 3 .outOfBounds) :=
  exec_of_handlerFails (.rmem ha)

/-- The cycle of `wmem` below `MEM_LEN` (46_memory_access.md R201): the value is written raw, and no
byte outside the word. -/
theorem exists_exec_wmem (v : Operand) (ha : (s.value a).toNat < s.memLen) :
    ∃ t, exec (.wmem a v) s = .next t ∧ t.word (s.value a).toNat = s.value v ∧ t.ip = s.ip + 3 ∧
      OnlyMemoryWord (s.value a).toNat s t := by
  have hend := Effect.wmem (v := v) ha
  refine ⟨_, exec_of_effect hend, ?_, rfl, rfl, fun b hlow hhigh => ?_⟩
  · rw [hend.word_of_wmem ha, if_pos rfl]
  · exact (readByte_writeWord ..).trans (by rw [if_neg hlow, if_neg hhigh])

theorem exec_wmem_outOfBounds (v : Operand) (ha : s.memLen ≤ (s.value a).toNat) :
    exec (.wmem a v) s = .next (s.failedAfter 3 .outOfBounds) :=
  exec_of_handlerFails (.wmem ha)

end

/-- Settles O57: below `MEM_LEN` both instructions come to the end that their rules give them. -/
theorem memoryInstructionsComplete : Obligations.MemoryInstructionsComplete :=
  fun d _ v _ ha => ⟨exists_exec_rmem d ha, exists_exec_wmem v ha⟩

/-- Settles O47: the address is the number that the second operand word names. -/
theorem rmemRule : Obligations.RmemRule := by
  refine instructionRule_of_decodeDV (mk := .rmem) (fun _ _ => rfl)
    (fun _ _ hrow => by rw [decodeOpcode, hrow]; rfl) fun s _ hstep => ?_
  rw [hstep, ← s.value_operandOf 2]
  exact ⟨exec_rmem_outOfBounds _, exists_exec_rmem _⟩

/-- Settles O48: the address and the value are what the two operand words name. -/
theorem wmemRule : Obligations.WmemRule := by
  refine instructionRule_of_decodeVV (mk := .wmem) (fun _ _ => rfl)
    (fun _ _ hrow => by rw [decodeOpcode, hrow]; rfl) fun s _ hstep => ?_
  rw [hstep, ← s.value_operandOf 1, ← s.value_operandOf 2]
  refine ⟨exec_wmem_outOfBounds _, fun ha => ?_⟩
  obtain ⟨t, ht, hword, hframe⟩ := exists_exec_wmem (operandOf (s.windowWord 2)) ha
  exact ⟨t, ht, congrArg BitVec.toNat hword, hframe⟩

end Sys2Proof.Machine

/-! ### Call and return -/

namespace Sys2Proof.Machine

/-- The word after a `call` in a window that fits has an address that fits in a word, as `MEM_LEN` is at
most 65536 (decision D7): what is pushed is the return address whole (47_call_return.md R210). -/
theorem exists_exec_call_of_fits {s : State} (a : Operand) (hfit : s.ip + 4 ≤ s.memLen)
    (hmem : s.memLen ≤ 65536) (hroom : ∀ n, s.cfg.stackDepth = some n → s.stack.length < n) :
    ∃ t v, exec (.call a) s = .next t ∧ t.stack = v :: s.stack ∧ v.toNat = s.ip + 2 ∧
      t.ip = (s.value a).toNat ∧ OnlyStack s t :=
  exists_exec_call a (by omega) hroom

theorem exec_call_full {s : State} (a : Operand)
    (hfull : ∃ n, s.cfg.stackDepth = some n ∧ n ≤ s.stack.length) :
    exec (.call a) s = .next (s.failedAfter 2 .stackOverflow) :=
  exec_of_handlerFails (.call (State.stackFull_iff.mpr hfull))

theorem exec_ret_empty {s : State} (hs : s.stack = []) :
    exec .ret s = .next (s.failedAfter 1 .emptyStack) :=
  exec_of_handlerFails (.ret hs)

/-- Settles O30: on the stack that `call` left, the word that `ret` takes is the return address. -/
theorem returnComesBackAfterTheCall : Obligations.ReturnComesBackAfterTheCall := by
  intro a s u hfit hmem hroom
  obtain ⟨t, v, hcall, hpushed, hv, hip, -⟩ := exists_exec_call_of_fits a hfit hmem hroom
  exact ⟨t, hcall, hip, fun hbalanced => ⟨_, exec_ret (hbalanced.trans hpushed), hv, rfl⟩⟩

/-- Settles O49: `call` fails on a full stack and, on one with room, jumps to the value its operand word
names. -/
theorem callRule : Obligations.CallRule := by
  refine instructionRule_of_decodeV (mk := .call) (fun _ => rfl)
    (fun _ _ hrow => by rw [decodeOpcode, hrow]; rfl) fun s hfit hstep => ?_
  rw [hstep, ← s.value_operandOf 1]
  exact ⟨exec_call_full _, exists_exec_call_of_fits _ hfit⟩

/-- Settles O50: `ret` has no operand word to reject; it fails on an empty stack and takes the top word
of another. -/
theorem retRule : Obligations.RetRule :=
  instructionRule_of_no_operands (i := .ret) rfl rfl fun _ _ hstep =>
    ⟨fun hs => hstep.trans (exec_ret_empty hs), fun _ _ hs => hstep.trans (exec_ret hs)⟩

end Sys2Proof.Machine

/-! ### Character output -/

namespace Sys2Proof.Machine

/-- Settles O51: `out` completes in every state, and its value is the one its operand word names. -/
theorem outRule : Obligations.OutRule := by
  refine instructionRule_of_decodeV (mk := .out) (fun _ => rfl)
    (fun _ _ hrow => by rw [decodeOpcode, hrow]; rfl) fun s _ hstep => ?_
  rw [hstep, ← s.value_operandOf 1]
  obtain ⟨-, -, hout⟩ := haltNoopAndOutComplete (operandOf (s.windowWord 1)) s
  exact hout

/-- `out` is all that sends, one byte each (48_io.md R221). -/
theorem Effect.outLog_cases {s t : State} {i : Instr} (h : Effect s i t) :
    (t.outLog = s.outLog ∧ ∀ c, i ≠ .out c) ∨
      ∃ c, i = .out c ∧ t.outLog = s.outLog ++ [lowByte (s.value c)] := by
  cases h with
  | out => exact .inr ⟨_, rfl, rfl⟩
  | compute hd => exact .inl ⟨rfl, by rintro c rfl; cases hd⟩
  | fail hf => exact .inl ⟨rfl, by rintro c rfl; cases hf⟩
  | _ => exact .inl ⟨rfl, nofun⟩

theorem outLog_of_load {cfg : Config} {image : List Byte} {s : State}
    (h : State.load cfg image = some s) : s.outLog = [] := by
  unfold State.load at h
  split at h <;> cases h
  rfl

/-- Settles O25: a decode failure changes the run state alone, and of the decoded instructions only
`out` has an end with another log. -/
theorem outputLogOnlyGrows : Obligations.OutputLogOnlyGrows := by
  refine ⟨rfl, fun _ _ _ hload => outLog_of_load hload, fun s t ht => ?_⟩
  obtain ⟨st, -, hs⟩ | ⟨k, -, hd, hs⟩ | ⟨i, -, hd, hs⟩ := step_cases s
  · cases hs.symm.trans ht
  · cases hs.symm.trans ht
    exact .inl ⟨rfl, fun c hc => nomatch hd.symm.trans hc⟩
  · obtain ⟨hlog, hi⟩ | ⟨c, rfl, hlog⟩ := (exec_next_iff.mp (hs.symm.trans ht)).outLog_cases
    · exact .inl ⟨hlog, fun c hc => hi c (Except.ok.inj (hd.symm.trans hc))⟩
    · exact .inr ⟨c, _, hd, toNat_lowByte (s.value c), hlog⟩

end Sys2Proof.Machine

/-! ### Character input -/

namespace Sys2Proof.Machine

/-! #### The ends of `in` -/

theorem toNat_zext16 (b : Byte) : (zext16 b).toNat = b.toNat :=
  BitVec.toNat_setWidth_of_le (by decide)

section
variable {s : State} (d : Reg) {b : Byte} {rest : List Byte} {more : List InResponse}

/-- The end of `in` on a queued byte (48_io.md R223). -/
theorem exec_in_queued (hq : s.inQueue = b :: rest) :
    exec (.inp d) s = .next ({ s with ip := s.ip + 2, inQueue := rest }.setReg d (zext16 b)) :=
  exec_of_effect (.inQueued hq)

/-- An `in` that is answered a line takes its byte as if the line had been queued already
(48_io.md R223). -/
theorem exec_in_line (hq : s.inQueue = []) (hh : s.hostIn = .line (b :: rest) :: more) :
    exec (.inp d) s =
      exec (.inp d) (s.withInput (b :: rest) more (s.inLog ++ [.line (b :: rest)])) := by
  rw [exec_of_effect (.inLine hq hh), exec_in_queued d rfl]
  rfl

theorem exec_in_unavailable {r : InResponse} (hq : s.inQueue = []) (hh : s.hostIn = r :: more)
    (hr : r = .unavailable ∨ r = .line []) :
    exec (.inp d) s = .next
      { s.failedAfter 2 .inputUnavailable with hostIn := more, inLog := s.inLog ++ [r] } :=
  exec_of_effect (.inUnavailable hr.symm hq hh)

theorem exec_in_waiting (hq : s.inQueue = []) (hh : s.hostIn = []) : exec (.inp d) s = .next s :=
  exec_of_effect (.inWaiting hq hh)

/-- `in` on a queued byte changes its register, the queue and `ip` (48_io.md R223). -/
theorem exists_exec_in_queued (hq : s.inQueue = b :: rest) :
    ∃ t, exec (.inp d) s = .next t ∧ (t.reg d).toNat = b.toNat ∧ t.inQueue = rest ∧
      t.ip = s.ip + 2 ∧ OnlyRegisterAndQueue d s t :=
  ⟨_, exec_in_queued d hq, by rw [State.reg_setReg_same, toNat_zext16], rfl, rfl, rfl,
    fun _ hr => State.reg_setReg_other _ hr _⟩

/-- What changes the register, the queue and `ip` alone once an input side is given changes the input
side beside them. -/
theorem OnlyRegisterAndQueue.of_withInput {t : State} {d : Reg} {q : List Byte}
    {rs log : List InResponse} (h : OnlyRegisterAndQueue d (s.withInput q rs log) t) :
    OnlyRegisterAndInput d s t ∧ t.hostIn = rs ∧ t.inLog = log := by
  obtain ⟨ht, hregs⟩ := h
  rw [ht]
  rw [ht] at hregs
  exact ⟨⟨rfl, hregs⟩, rfl, rfl⟩

/-- `in` on an answered line queues the bytes after the first and records the one exchange
(48_io.md R222, R223). -/
theorem exists_exec_in_line (hq : s.inQueue = []) (hh : s.hostIn = .line (b :: rest) :: more) :
    ∃ t, exec (.inp d) s = .next t ∧ (t.reg d).toNat = b.toNat ∧ t.inQueue = rest ∧
      t.hostIn = more ∧ t.inLog = s.inLog ++ [.line (b :: rest)] ∧ t.ip = s.ip + 2 ∧
      OnlyRegisterAndInput d s t := by
  obtain ⟨t, ht, hreg, hqueue, hip, hframe⟩ := exists_exec_in_queued
    (s := s.withInput (b :: rest) more (s.inLog ++ [.line (b :: rest)])) d rfl
  obtain ⟨honly, hhost, hlog⟩ := hframe.of_withInput
  exact ⟨t, (exec_in_line d hq hh).trans ht, hreg, hqueue, hhost, hlog, hip, honly⟩

end

/-- Settles O58: from the queue and from the line. -/
theorem inputInstructionCompletes : Obligations.InputInstructionCompletes :=
  fun d _ _ _ => ⟨exists_exec_in_queued d, fun _ => exists_exec_in_line d⟩

/-- Settles O52: the four things the queue and the host's answers may be, the register being the one
that the operand word names. -/
theorem inRule : Obligations.InRule := by
  refine instructionRule_of_decodeD (mk := .inp) (fun _ => rfl)
    (fun _ _ hrow => by rw [decodeOpcode, hrow]; rfl) fun s _ hstep => ?_
  rw [hstep]
  exact ⟨fun _ _ => exists_exec_in_queued _, fun _ _ _ => exists_exec_in_line _,
    fun _ _ => exec_in_unavailable _, exec_in_waiting _⟩

/-! #### A line, byte by byte -/

theorem State.setReg_setReg (s : State) (d : Reg) (v w : Word) :
    (s.setReg d v).setReg d w = s.setReg d w := by
  simp only [State.setReg, Vector.set_set]

theorem execAll_congr {i : Instr} {s t : State} (h : exec i s = exec i t) (is : List Instr) :
    execAll (i :: is) s = execAll (i :: is) t := by
  rw [execAll, h, execAll]

/-- As many `in`s into one register as the queue has bytes, or fewer, take that many and leave the last
one taken in the register (48_io.md R223). -/
theorem execAll_replicate_in (d : Reg) {n : Nat} {s : State} (hn : n < s.inQueue.length) :
    execAll (List.replicate (n + 1) (.inp d)) s =
      .next ({ s with ip := s.ip + 2 * (n + 1), inQueue := s.inQueue.drop (n + 1) }.setReg d
        (zext16 (s.inQueue.getD n 0))) := by
  induction n generalizing s with
  | zero =>
    obtain ⟨b, rest, hq⟩ := List.exists_cons_of_length_pos hn
    rw [List.replicate_succ, execAll_cons (exec_in_queued d hq), hq]
    rfl
  | succ n ih =>
    obtain ⟨b, rest, hq⟩ := List.exists_cons_of_length_pos (Nat.zero_lt_of_lt hn)
    have hrest : n < rest.length := by simpa [hq] using hn
    have hip : s.ip + 2 + 2 * (n + 1) = s.ip + 2 * (n + 1 + 1) := by omega
    rw [List.replicate_succ, execAll_cons (exec_in_queued d hq), ih hrest, hq, ← hip]
    exact congrArg Host.Outcome.next (State.setReg_setReg
      { s with ip := s.ip + 2 + 2 * (n + 1), inQueue := rest.drop (n + 1) } d _ _)

/-- Settles O34: the first `in` takes its byte as if the line were queued, so all of them do, and the
queue is handed out byte by byte. -/
theorem lineIsDeliveredByteByByte : Obligations.LineIsDeliveredByteByByte := by
  intro d bs more s n hq hh hpos hn
  obtain ⟨n, rfl⟩ := Nat.exists_eq_add_of_le' hpos
  obtain ⟨b, rest, rfl⟩ := List.exists_cons_of_length_pos (Nat.zero_lt_of_lt hn)
  have hline := execAll_congr (exec_in_line d hq hh) (List.replicate n (.inp d))
  refine ⟨_, hline.trans (execAll_replicate_in (n := n) d hn), rfl, ?_, rfl,
    ⟨rfl, fun _ hr => State.reg_setReg_other _ hr _⟩, rfl, rfl⟩
  rw [State.reg_setReg_same, toNat_zext16]
  rfl

/-! #### Waiting for the host -/

/-- A step that keeps the state keeps it however often it is taken. -/
theorem run_of_step_self {M : Host.Core} {s : M.State} (h : M.step s = .next s) (n : Nat) :
    M.run n s = .next s := by
  induction n with
  | zero => rfl
  | succ n ih =>
    rw [Host.Core.run, h]
    exact ih

theorem State.awaitingInput.step_eq {s : State} (h : s.awaitingInput) : step s = .next s := by
  obtain ⟨hrun, ⟨d, hd⟩, hq, hh⟩ := h
  exact (step_of_decodeNext_ok hrun hd).trans (exec_in_waiting d hq hh)

/-- Settles O35: each step waits in the same state. -/
theorem silentHostKeepsTheMachineWaiting : Obligations.SilentHostKeepsTheMachineWaiting :=
  fun _ h n => run_of_step_self (M := core) h.step_eq n

end Sys2Proof.Machine

/-! ### Handler failures -/

namespace Sys2Proof.Machine

/-- In a Running state a cycle ends in a failure only by its handler's failing or by an `in` to which
the host gives nothing (60_exceptions.md R242). -/
theorem Effect.failure_cases {s t : State} {i : Instr} {k : FailureKind} (h : Effect s i t)
    (hrun : s.run = .running) (hk : t.run = .halted (.failure k)) :
    HandlerFails s i k ∨ (k = .inputUnavailable ∧ s.inQueue = [] ∧ ∃ d, i = .inp d) := by
  cases h with
  | fail hf => cases hk; exact .inl hf
  | inUnavailable _ hq => cases hk; exact .inr ⟨rfl, hq, _, rfl⟩
  | halt => cases hk
  | _ => cases hrun.symm.trans hk

/-- Settles O18: the seven handler failures by kind, then the one of `in`. -/
theorem handlerFailuresByInstruction : Obligations.HandlerFailuresByInstruction := by
  intro i s t k hrun ht hk
  obtain hf | hin := (exec_next_iff.mp ht).failure_cases hrun hk
  · cases hf with
    | pop hs => exact .inl ⟨rfl, hs, .inr ⟨_, rfl⟩⟩
    | ret hs => exact .inl ⟨rfl, hs, .inl rfl⟩
    | push hfull => exact .inr (.inl ⟨rfl, State.stackFull_iff.mp hfull, _, .inl rfl⟩)
    | call hfull => exact .inr (.inl ⟨rfl, State.stackFull_iff.mp hfull, _, .inr rfl⟩)
    | mod hb => exact .inr (.inr (.inl ⟨rfl, _, _, _, rfl, hb⟩))
    | rmem ha => exact .inr (.inr (.inr (.inl ⟨rfl, _, ha, .inl ⟨_, rfl⟩⟩)))
    | wmem ha => exact .inr (.inr (.inr (.inl ⟨rfl, _, ha, .inr ⟨_, rfl⟩⟩)))
  · exact .inr (.inr (.inr (.inr hin)))

/-- Settles O59, handler by handler. -/
theorem handlersFailWhereTheSpecSays : Obligations.HandlersFailWhereTheSpecSays :=
  fun d a b _ => ⟨fun hfull => ⟨exec_push_full a hfull, exec_call_full a hfull⟩,
    fun hs => ⟨exec_pop_empty d hs, exec_ret_empty hs⟩,
    fun hb => exec_mod_by_zero d a (congrArg BitVec.toNat hb),
    fun ha => ⟨exec_rmem_outOfBounds d ha, exec_wmem_outOfBounds b ha⟩,
    fun _ _ => exec_in_unavailable d⟩

end Sys2Proof.Machine

/-! ### Loading -/

namespace Sys2Proof.Machine

/-- Settles O3: reset is the load of the empty image under the default opcode map (log 2), whose numbers
are distinct. -/
theorem resetMeetsInvariant : Obligations.ResetMeetsInvariant :=
  inv_of_load (cfg := Config.default) (image := []) (by decide) rfl

/-- Word `i` of a loaded image is its bytes `2i` and `2i + 1`, low byte first (70_reset_and_hazards.md
R271). -/
theorem toNat_readWord_cellsOf (image : List Byte) (i : Nat) :
    (readWord (cellsOf 0 image) i).toNat =
      (image.getD (2 * i) 0).toNat + 256 * (image.getD (2 * i + 1) 0).toNat := by
  rw [readWord, toNat_wordOfBytes, readByte_cellsOf, readByte_cellsOf, if_pos (Nat.zero_le _),
    if_pos (Nat.zero_le _), Nat.sub_zero, Nat.sub_zero]

/-- Settles O2: the image's bytes read back as its words, everything else is reset's, and the empty
image leaves no room for a window. -/
theorem loadGivesTheImageWords : Obligations.LoadGivesTheImageWords := by
  intro cfg image
  refine ⟨fun hbad => if_neg (by omega), fun heven hsize =>
    ⟨_, if_pos ⟨heven, hsize⟩, rfl, fun i _ => toNat_readWord_cellsOf image i, fun r => ?_,
      rfl, rfl, rfl, rfl, rfl, rfl, ?_⟩⟩
  · exact resetClearsRegistersAndIp.1 r
  · rintro rfl
    exact step_of_decodeNext_error rfl (State.decodeNext_of_not_fits (Nat.zero_lt_succ 3))

/-- A word of memory after a sequence of words is written: in the sequence's place its own word, in
any other the word of before. -/
theorem readWord_writeWords (m : Memory) (a b : Nat) (ws : List Word) :
    readWord (writeWords m a ws) b =
      if a ≤ b ∧ b < a + ws.length then ws.getD (b - a) 0 else readWord m b := by
  induction ws generalizing m a with
  | nil =>
    rw [writeWords, if_neg]
    simp
  | cons w ws ih =>
    rw [writeWords, ih, readWord_writeWord, List.length_cons]
    obtain hlt | rfl | hgt := Nat.lt_trichotomy b a
    · rw [if_neg (by omega), if_neg (by omega), if_neg (by omega)]
    · simp
    · obtain ⟨j, rfl⟩ := Nat.exists_eq_add_of_lt hgt
      rw [if_neg (by omega : ¬ a + j + 1 = a), show a + j + 1 - (a + 1) = j by omega,
        show a + j + 1 - a = j + 1 by omega, List.getD_cons_succ]
      exact if_congr (by omega) rfl rfl

/-- Word `k` of the window at `ip` is word `k` of what was placed there (log 26). -/
theorem State.windowWord_placeWindow (s : State) {ws : List Word} {k : Nat} (hk : k < ws.length) :
    (s.placeWindow ws).windowWord k = ws.getD k 0 := by
  have hplace : s.ip ≤ s.ip + k ∧ s.ip + k < s.ip + ws.length := by omega
  refine (readWord_writeWords s.mem s.ip (s.ip + k) ws).trans ?_
  rw [if_pos hplace, Nat.add_sub_cancel_left]

/-- Four words placed at `ip` decode there as they decode by themselves. -/
theorem State.decodeNext_placeWindow (s : State) {ws : List Word} (hlen : ws.length = 4) :
    (s.placeWindow ws).decodeNext = decodeWords s.cfg ws := by
  have hword : ∀ k, k < 4 → (s.placeWindow ws).windowWord k = ws.getD k 0 :=
    fun k hk => s.windowWord_placeWindow (hlen ▸ hk)
  rw [State.decodeNext_eq_window (le_max_right _ _), State.window, hword 0 (by decide),
    hword 1 (by decide), hword 2 (by decide), hword 3 (by decide)]
  match ws, hlen with
  | [_, _, _, _], _ => rfl

/-- Settles O11: what is placed at `ip` decodes there to the instruction it encodes, and the machine is
Running. -/
theorem placedInstructionIsNextToRun : Obligations.PlacedInstructionIsNextToRun := by
  intro s i pad hcfg hwf hlen hpad
  have hpadlen : pad.length ≤ 4 - i.len := by
    rw [List.length_append, length_encode] at hlen
    omega
  have hdec := decodeWords_encode_append hcfg hwf hlen.ge
    (by rwa [List.take_of_length_le hpadlen])
  exact step_of_decodeNext_ok rfl ((s.decodeNext_placeWindow hlen).trans hdec)

end Sys2Proof.Machine
